-- ==== Sys2Proof/Word.lean ====
section
/-! DEFINITION. The word types of HDB: 32-bit registers (R7 `REG_W`, 10_state.md R25), bytes of BUF
(00_scope.md R9) and 64-bit elements of OUT (R7 `OUT_W`). -/

namespace Sys2Proof

/-- A register of HDB: 32 bits (R25). -/
abbrev Word := BitVec 32

/-- One byte of BUF (R9). -/
abbrev Byte := BitVec 8

/-- One element of the output stream OUT: 64 bits (R40). -/
abbrev Val := BitVec 64

end Sys2Proof
end

