-- ==== Sys2Proof/Config.lean ====
section
/-! DEFINITION. What an implementation fixes (00_scope.md R7, 20_memory.md R60) and the free values the
spec leaves open (R12, R41, R102, R152). A constant declared `opaque` has no body: no proof can see its
value. -/

namespace Sys2Proof.Config

/-- R7 `BW_MAX`: the largest legal bit width. -/
def bwMax : Nat := 32

/-- R7 `VARINT_MAXB`: the longest in-contract varint, in bytes. -/
def varintMaxBytes : Nat := 5

/-- R7 `VARINT_W`: the width of the varint accumulator, in bits. -/
def varintBits : Nat := 32

/-- R7 `GROUP`: values in one bit-packed group. -/
def group : Nat := 8

/-- R7 `PREFIX_B`: bytes of the length prefix. -/
def prefixBytes : Nat := 4

/-- The two open parameters of R7 that a model takes as arguments. `outDepth = none` is ∞ (no
back-pressure). -/
structure Params where
  bufSize : Nat
  outDepth : Option Nat
deriving DecidableEq, Repr

/-- R7: `1 ≤ BUF_SIZE ≤ 2^31 − 1`, and `1 ≤ OUT_DEPTH` or ∞. -/
def Params.legal (p : Params) : Bool :=
  decide (1 ≤ p.bufSize) && decide (p.bufSize ≤ 2 ^ 31 - 1) &&
    match p.outDepth with
    | none => true
    | some d => decide (1 ≤ d)

/-- Free: any number; `params` maps it onto the legal range of BUF_SIZE. -/
opaque bufSizeChoice : Nat

/-- Free: any number or none; `params` maps it onto the legal values of OUT_DEPTH. -/
opaque outDepthChoice : Option Nat

/-- The parameters of the machine that stands in `State.reset`: any legal pair (R7; log 6). -/
def params : Params :=
  { bufSize := 1 + bufSizeChoice % (2 ^ 31 - 1), outDepth := outDepthChoice.map (· + 1) }

/-- R12 `draw_u32()`: free. The first argument is the step that draws (`State.draws`), the second says
which draw of that step it is, so distinct occurrences are independent (log 3). -/
opaque draw : Nat → Nat → Word

/-- R152: the byte that stands at a BUF address after power-up and until it is written: free (log 4). -/
opaque powerUpByte : Nat → Byte

/-- R60 `HDB_REG_BASE`: where the register window lies on the host's bus, left to the platform. No rule
reads it: host actions give offsets into the window (log 12). -/
opaque regBase : Nat

/-- R60 `HDB_BUF_BASE`: where BUF lies on the host's bus, left to the platform. No rule reads it (log 12). -/
opaque bufBase : Nat

end Sys2Proof.Config
end

