-- ==== Sys2Proof/Syntax.lean ====
section
/-! DEFINITION. The instructions of HDB, one constructor per row of spec/opcode_table.json: the eight
commands of 30_encoding.md R73 and the two run kinds of the hybrid stream (R82, 44_hybrid.md R122). The
32-bit operand of a command is not part of its word: it is the latched ARG (R72, R75). -/

namespace Sys2Proof

/-- One row of the opcode table. `bw` is the 6-bit field CMD[9:4]; `count` and `numGroups` are the bits
31:1 of a run header. -/
inductive Instr where
  /-- RDBYTE, read one byte (R96). -/
  | rdbyte
  /-- RDN, read n = ARG bytes (R97). -/
  | rdn
  /-- RDU32, read a 4-byte little-endian value (R98). -/
  | rdu32
  /-- VARINT, decode one varint (R104). -/
  | varint
  /-- BITPACK, unpack one bit-packed run whose header is ARG (R111). -/
  | bitpack (bw : BitVec 6)
  /-- RLE, decode one RLE run whose header is ARG (R117). -/
  | rle (bw : BitVec 6)
  /-- HYB.P, decode a length-prefixed hybrid stream (R126). -/
  | hybP (bw : BitVec 6)
  /-- HYB.L, decode a hybrid stream of n = ARG bytes (R127). -/
  | hybL (bw : BitVec 6)
  /-- RUN_RLE, a run header with bit 0 = 0: the RLE Run Decoder (R122). -/
  | runRle (count : BitVec 31)
  /-- RUN_BP, a run header with bit 0 = 1: the Bit-Packed Unpacker (R122). -/
  | runBp (numGroups : BitVec 31)
deriving DecidableEq, Repr

/-- The rows whose words are run headers inside a hybrid payload, not command words (R82). -/
def Instr.isRun : Instr → Bool
  | .rdbyte => false
  | .rdn => false
  | .rdu32 => false
  | .varint => false
  | .bitpack _ => false
  | .rle _ => false
  | .hybP _ => false
  | .hybL _ => false
  | .runRle _ => true
  | .runBp _ => true

/-- The rows whose words are command words, written to CMD (R72). -/
def Instr.isCommand (i : Instr) : Bool := !i.isRun

/-- The bit-width field of the commands that have one (R74). -/
def Instr.width : Instr → Option (BitVec 6)
  | .rdbyte => none
  | .rdn => none
  | .rdu32 => none
  | .varint => none
  | .bitpack bw => some bw
  | .rle bw => some bw
  | .hybP bw => some bw
  | .hybL bw => some bw
  | .runRle _ => none
  | .runBp _ => none

end Sys2Proof
end

