-- ==== Sys2Proof/WellFormed.lean ====
section
/-! DEFINITION. Which instructions are legal (30_encoding.md R74, R77): a bit width is at most 32. A word
with BW 33 to 63 still spells its command (R74) and raises `IllegalParameter` when it executes (R77), so
decoding does not refuse it. -/

namespace Sys2Proof

/-- R74, R77: the BW field of BITPACK, RLE, HYB.P and HYB.L is 0 to 32. -/
def legalWidth (bw : BitVec 6) : Bool := decide (bw.toNat ≤ Config.bwMax)

/-- The instructions the spec calls legal. Every run header is legal (R82, R122). -/
def Instr.wf : Instr → Bool
  | .rdbyte => true
  | .rdn => true
  | .rdu32 => true
  | .varint => true
  | .bitpack bw => legalWidth bw
  | .rle bw => legalWidth bw
  | .hybP bw => legalWidth bw
  | .hybL bw => legalWidth bw
  | .runRle _ => true
  | .runBp _ => true

end Sys2Proof
end

