-- ==== Sys2Proof/Decode.lean ====
section
/-! DEFINITION. Encodings. The command word (30_encoding.md R72 to R78), the run header of the hybrid
stream (R82) and the varint bytes that carry it (R79, R87). Decoding is total: a word that is no legal
command is rejected by a name of `DecodeError` (R76). -/

namespace Sys2Proof

/-- Why R76 calls a latched word illegal. -/
inductive DecodeError where
  /-- OP is 0x0 or 0x8 to 0xF. -/
  | reservedOpcode
  /-- RSV is not zero. -/
  | reservedBitsSet
  /-- BW is not zero on a command that does not use it. -/
  | widthMustBeZero
  /-- LM is not zero on an OP other than 0x7. -/
  | lengthModeMustBeZero
deriving DecidableEq, Repr

/-- CMD[3:0] (R26, R72). -/
def opField (w : Word) : BitVec 4 := w.extractLsb' 0 4

/-- CMD[9:4] (R26, R72). -/
def bwField (w : Word) : BitVec 6 := w.extractLsb' 4 6

/-- CMD[10] (R26, R72). -/
def lmField (w : Word) : BitVec 1 := w.extractLsb' 10 1

/-- CMD[31:11] (R26, R72). -/
def rsvField (w : Word) : BitVec 21 := w.extractLsb' 11 21

/-- A command with neither BW nor LM (R74, first four rows). -/
def plainCommand (i : Instr) (bw : BitVec 6) (lm : BitVec 1) : Except DecodeError Instr :=
  if bw ≠ 0 then .error .widthMustBeZero
  else if lm ≠ 0 then .error .lengthModeMustBeZero
  else .ok i

/-- A command with BW and no LM (R74, BITPACK and RLE). -/
def widthCommand (i : Instr) (lm : BitVec 1) : Except DecodeError Instr :=
  if lm ≠ 0 then .error .lengthModeMustBeZero else .ok i

/-- R73, R74, R76: the command the four fields of a word spell. -/
def decodeFields (op : BitVec 4) (bw : BitVec 6) (lm : BitVec 1) (rsv : BitVec 21) :
    Except DecodeError Instr :=
  if rsv ≠ 0 then .error .reservedBitsSet
  else
    match op.toNat with
    | 1 => plainCommand .rdbyte bw lm
    | 2 => plainCommand .rdn bw lm
    | 3 => plainCommand .rdu32 bw lm
    | 4 => plainCommand .varint bw lm
    | 5 => widthCommand (.bitpack bw) lm
    | 6 => widthCommand (.rle bw) lm
    | 7 => if lm = 0 then .ok (.hybP bw) else .ok (.hybL bw)
    | _ => .error .reservedOpcode

/-- The command a 32-bit word written to CMD spells (R72 to R76). -/
def decodeCommand (w : Word) : Except DecodeError Instr :=
  decodeFields (opField w) (bwField w) (lmField w) (rsvField w)

/-- R82, R122: the run a header selects. Bit 0 alone chooses; no header value is refused. -/
def decodeHeader (h : Word) : Instr :=
  if h.getLsbD 0 then .runBp (h.extractLsb' 1 31) else .runRle (h.extractLsb' 1 31)

/-- The opcode table numbers two kinds of word alike, from bit 0: command words (format CMD32) and run
headers (format STREAM_HEADER). A word that spells a command is read as one; any other word is read as a
run header (log 8). The unit itself never mixes the two: a latched word is read by `decodeFields` alone,
and a header inside a payload by `decodeHeader` alone. -/
def decodeTable (w : Word) : Instr :=
  match decodeCommand w with
  | .ok i => i
  | .error _ => decodeHeader w

/-- The host's question of the table: the instruction of the word whose lowest `nbits` bits are `w`. -/
def decodeTableWord (nbits w : Nat) : Option Instr :=
  some (decodeTable (BitVec.ofNat 32 (w % 2 ^ nbits)))

/-- R72: a word from its fields. -/
def commandWord (op : BitVec 4) (bw : BitVec 6) (lm : BitVec 1) (rsv : BitVec 21) : Word :=
  rsv ++ lm ++ bw ++ op

/-- The word of an instruction: R74 and R88 for the commands, R82 and R87 for the run headers. -/
def encode : Instr → Word
  | .rdbyte => commandWord 1 0 0 0
  | .rdn => commandWord 2 0 0 0
  | .rdu32 => commandWord 3 0 0 0
  | .varint => commandWord 4 0 0 0
  | .bitpack bw => commandWord 5 bw 0 0
  | .rle bw => commandWord 6 bw 0 0
  | .hybP bw => commandWord 7 bw 0 0
  | .hybL bw => commandWord 7 bw 1 0
  | .runRle count => count ++ 0#1
  | .runBp numGroups => numGroups ++ 1#1

/-- The `match` column of R74 and, for the run kinds, of R82. -/
def rowMatch : Instr → Word
  | .rdbyte => 0x00000001
  | .rdn => 0x00000002
  | .rdu32 => 0x00000003
  | .varint => 0x00000004
  | .bitpack _ => 0x00000005
  | .rle _ => 0x00000006
  | .hybP _ => 0x00000007
  | .hybL _ => 0x00000407
  | .runRle _ => 0x00000000
  | .runBp _ => 0x00000001

/-- The `mask` column of R74 and, for the run kinds, of R82. -/
def rowMask : Instr → Word
  | .rdbyte => 0xFFFFFFFF
  | .rdn => 0xFFFFFFFF
  | .rdu32 => 0xFFFFFFFF
  | .varint => 0xFFFFFFFF
  | .bitpack _ => 0xFFFFFC0F
  | .rle _ => 0xFFFFFC0F
  | .hybP _ => 0xFFFFFC0F
  | .hybL _ => 0xFFFFFC0F
  | .runRle _ => 0x00000001
  | .runBp _ => 0x00000001

/-- R79: the canonical varint bytes of `n`, at most `fuel + 1` of them. -/
def varintBytesFuel : Nat → Nat → List Byte
  | 0, n => [BitVec.ofNat 8 (n % 128)]
  | fuel + 1, n =>
    if n < 128 then [BitVec.ofNat 8 n]
    else BitVec.ofNat 8 (n % 128 + 128) :: varintBytesFuel fuel (n / 128)

/-- R79, R87: the canonical varint bytes of a 32-bit value, one to five of them. -/
def varintBytes (w : Word) : List Byte :=
  varintBytesFuel (Config.varintMaxBytes - 1) w.toNat

end Sys2Proof
end

