-- ==== Sys2Proof/Machine/State.lean ====
section
/-! DEFINITION. The state of one HDB instance (10_state.md R48), its parameters (00_scope.md R7), and the
turns of its two agents (R20 to R22). Plain data throughout. -/

namespace Sys2Proof.Machine

/-- BUF as the bytes written so far, addresses strictly rising. An address that is not listed has not
been written since power-up: its byte is free (70_reset_and_hazards.md R152, log 4). -/
abbrev Memory := List Host.Cell

/-- The errors of a command (60_exceptions.md R129). Each is a next state, the rollback of R137. -/
inductive CmdError where
  | truncatedInput
  | illegalCommand
  | illegalParameter
deriving DecidableEq, Repr

/-- The command latch PEND (R38). -/
structure Pend where
  valid : Bool
  op : BitVec 4
  bw : BitVec 6
  lm : BitVec 1
  rsv : BitVec 21
  arg : Word
deriving DecidableEq, Repr

/-- A cursor (00_scope.md R13): it views `BUF[off .. lim−1]`. -/
structure Cursor where
  off : Nat
  lim : Nat
deriving DecidableEq, Repr

/-- The transient state of a hybrid command (R39): the sub-cursor and the values accumulated so far.
Empty between steps (log 7). -/
structure StreamRegs where
  sub : Cursor
  vals : List Val
deriving DecidableEq, Repr

/-- The transient state as every step leaves it (R39: none of it survives the step). -/
def StreamRegs.idle : StreamRegs := { sub := { off := 0, lim := 0 }, vals := [] }

/-- The register map (R25). -/
inductive Reg where
  | cmd | arg | status | result | off | len | rem | consumed | outcntLo | outcntHi | bufsz | reserved
deriving DecidableEq, Repr

/-- The host's actions (R21). A register access carries its byte offset and its width in bits. -/
inductive HostAction where
  | regRead (off width : Nat)
  | regWrite (off width : Nat) (d : Word)
  | bufWrite (a : Nat) (b : Byte)
  | bufRead (a : Nat)
  | outPop
deriving DecidableEq, Repr

/-- Whose move it is (R20, R21, R150): a host action, the host in a WAIT (R89), the unit, or the reset input
(log 1). -/
inductive Turn where
  | host (a : HostAction)
  /-- WAIT of 30_encoding.md R89: STATUS is read until BUSY reads 0. `ahead` says how many more polls that
  read BUSY = 1 come before the unit moves: the interleaving of R21, not a bound on the polls (log 1). -/
  | wait (ahead : Nat)
  | unit
  | reset
deriving DecidableEq, Repr

/-- What a host action returned (R21; log 2). -/
inductive Reply where
  | reg (v : Word)
  | byte (b : Byte)
  | out (v : Val)
deriving DecidableEq, Repr

/-- What a successful command hands to the commit (00_scope.md R14): its scalar result, its values in
order, and the cursor it ends with. -/
structure CmdOk where
  result : Word
  values : List Val
  cur : Cursor
deriving DecidableEq, Repr

/-- No behaviour of HDB stops the machine (R133: "No error stops or hangs the unit"), so there is no
fault: nothing raises one, which is neither safe nor unsafe. -/
inductive Fault where
deriving DecidableEq, Repr

/-- Why a step has no transition. -/
inductive Refusal where
  /-- An instruction without a meaning. No arm of `exec` answers it: every row has its meaning. Safe. -/
  | notModelled (mnemonic : String)
  /-- Raised by a host's register access that is not an aligned 32-bit word of the window
  (20_memory.md R56: "A model refuses such an access"). Safe. -/
  | registerAccessOutsideInterface
deriving DecidableEq, Repr

/-- One HDB instance. The fields from `buf` to `out` are R48's; `stream` is the transient state of R39;
`params` are R7's parameters; `draws`, `script` and `replies` are the model's own (logs 1 to 3). -/
structure State where
  params : Config.Params
  buf : Memory
  cmd : Word
  arg : Word
  result : Word
  off : Word
  len : Word
  consumed : Word
  outcnt : BitVec 64
  wob : Bool
  err : BitVec 4
  pend : Pend
  out : List Val
  stream : StreamRegs
  draws : Nat
  script : List Turn
  replies : List Reply
deriving DecidableEq, Repr

/-- PEND after reset (R38, R151): `valid = 0`. The other fields are unspecified and never read while
`valid = 0`; the model names zero for them (log 5). -/
def Pend.reset : Pend := { valid := false, op := 0, bw := 0, lm := 0, rsv := 0, arg := 0 }

/-- R151 for given parameters, with BUF at its power-up contents (R152). -/
def State.resetWith (p : Config.Params) : State :=
  { params := p
    buf := []
    cmd := 0
    arg := 0
    result := 0
    off := 0
    len := 0
    consumed := 0
    outcnt := 0
    wob := false
    err := 0
    pend := Pend.reset
    out := []
    stream := StreamRegs.idle
    draws := 0
    script := []
    replies := [] }

/-- The machine right after reset (R151, R152), with any legal parameters (log 6). -/
def State.reset : State := State.resetWith Config.params

end Sys2Proof.Machine
end

