-- ==== Sys2Proof/Machine/Ops.lean ====
section
/-! DEFINITION. The named operations over BUF and the registers, the command latch, the commit of a
successful command (60_exceptions.md R136) and the rollback of a failed one (R137), which is what HDB has
in place of taking an exception; there is no return from it (R139). -/

namespace Sys2Proof.Machine

/-- The byte written at an address, if any. -/
def Memory.lookup : Memory → Nat → Option Byte
  | [], _ => none
  | (a, b) :: m, x => if a = x then some b else Memory.lookup m x

/-- R10 `MemWrite(a, 1, b)`: one byte, keeping the addresses strictly rising. -/
def Memory.write : Memory → Nat → Byte → Memory
  | [], a, b => [(a, b)]
  | (x, c) :: m, a, b =>
    if a < x then (a, b) :: (x, c) :: m
    else if a = x then (a, b) :: m
    else (x, c) :: Memory.write m a b

/-- The bytes of a list at consecutive addresses from `a`. -/
def Memory.writeAll : Memory → Nat → List Byte → Memory
  | m, _, [] => m
  | m, a, b :: bs => Memory.writeAll (Memory.write m a b) (a + 1) bs

/-- BUF[a]: the byte written there or, before any write, the free power-up byte (R152, log 4). -/
def Memory.byte (m : Memory) (a : Nat) : Byte :=
  (Memory.lookup m a).getD (Config.powerUpByte a)

/-- The canonical form of BUF: addresses strictly rising. An unlisted address has no value the model
names, so no entry can equal what it reads as. -/
abbrev Memory.wf (m : Memory) : Prop := m.Pairwise (fun x y => x.1 < y.1)

/-- R10 `MemRead(a, n)`. -/
def memRead (m : Memory) (a n : Nat) : List Byte :=
  (List.range n).map fun j => Memory.byte m (a + j)

/-- R13, R29: the main cursor, empty at LEN when OFF exceeds LEN. -/
def State.mainCursor (s : State) : Cursor :=
  if s.off.toNat ≤ s.len.toNat then { off := s.off.toNat, lim := s.len.toNat }
  else { off := s.len.toNat, lim := s.len.toNat }

/-- R31: the register REM. -/
def State.rem (s : State) : Word :=
  if s.off.toNat ≤ s.len.toNat then s.len - s.off else 0

/-- R129: the code of an error in STATUS.ERR. Code 0 is OK. -/
def CmdError.code : CmdError → BitVec 4
  | .truncatedInput => 1
  | .illegalCommand => 2
  | .illegalParameter => 3

/-- R43: the latch an accepted CMD write of `w` takes, with the ARG register of that moment. -/
def Pend.ofWord (w arg : Word) : Pend :=
  { valid := true, op := opField w, bw := bwField w, lm := lmField w, rsv := rsvField w, arg := arg }

/-- R43: an accepted CMD write. -/
def State.latchCommand (s : State) (w : Word) : State :=
  { s with cmd := w, pend := Pend.ofWord w s.arg }

/-- R22 step 3, R136, R137: `PEND.valid <- 0`. -/
def Pend.clear (p : Pend) : Pend := { p with valid := false }

/-- R136: the commit. `k` is the number of bytes the command consumed from the main cursor. The transient
state is discarded (R39) and the draw counter moves on (log 3). -/
def State.commit (s : State) (o : CmdOk) : State :=
  let k := o.cur.off - s.mainCursor.off
  { s with
    off := s.off + BitVec.ofNat 32 k
    result := o.result
    consumed := BitVec.ofNat 32 k
    outcnt := BitVec.ofNat 64 o.values.length
    out := s.out ++ o.values
    err := 0
    pend := s.pend.clear
    stream := StreamRegs.idle
    draws := s.draws + 1 }

/-- R137: the rollback with error `e`. OFF, LEN, BUF and OUT are unchanged. -/
def State.rollback (s : State) (e : CmdError) : State :=
  { s with
    result := 0
    consumed := 0
    outcnt := 0
    err := e.code
    pend := s.pend.clear
    stream := StreamRegs.idle
    draws := s.draws + 1 }

/-- R22 step 2: a command's outcome is committed or rolled back, and the machine goes on. -/
def State.settle (s : State) (r : Except CmdError CmdOk) : Host.Outcome State Fault Refusal :=
  match r with
  | .ok o => .next (s.commit o)
  | .error e => .next (s.rollback e)

/-- R150, R151, R152: the step `Reset`. A latched command is discarded with neither commit nor rollback;
BUF keeps its bytes. The parameters, the turns to come, the replies given and the draw counter are not
state of the unit, and stay (log 9). -/
def State.resetUnit (s : State) : State :=
  { State.resetWith s.params with
    buf := s.buf, draws := s.draws, script := s.script, replies := s.replies }

/-- A hybrid payload that holds the run header `h` alone, latched as `HYB.L` with bit width 0, so that the
unit's next step reads and runs exactly that header (log 8). With width 0 a run has no body (R109, R116). -/
def State.placeRun (s : State) (h : Word) : State :=
  let bytes := varintBytes h
  let n := BitVec.ofNat 32 bytes.length
  State.latchCommand
    { s with buf := Memory.writeAll s.buf 0 bytes, off := 0, len := n, arg := n } (encode (.hybL 0))

/-- A table word placed where the unit takes its next instruction, and the next turn given to the unit
(log 8): a command word is latched as an accepted CMD write latches it (R43), a run header is put into a
payload. -/
def State.placeTableWord (s : State) (nbits w : Nat) : State :=
  let v : Word := BitVec.ofNat 32 (w % 2 ^ nbits)
  let t : State := { s with script := .unit :: s.script }
  match decodeCommand v with
  | .ok _ => t.latchCommand v
  | .error _ => t.placeRun v

end Sys2Proof.Machine
end

