-- ==== Sys2Proof/Machine/Operands.lean ====
section
/-! DEFINITION. Every way an operand reaches a command (10_state.md R23): the cursor primitives over BUF
(40_cursor.md R91 to R95), little-endian assembly (00_scope.md R9), the latched ARG and the width field
(30_encoding.md R75), and the sizes a run header gives (42_bitpack.md R106, 43_rle.md R113). -/

namespace Sys2Proof.Machine

/-- R9 `LE(b0, b1, …)`: the first byte is the least significant. -/
def le : List Byte → Nat
  | [] => 0
  | b :: bs => b.toNat + 256 * le bs

/-- R91 `CurRem`. -/
def curRem (c : Cursor) : Nat := c.lim - c.off

/-- R92 `CurReadByte`. -/
def curReadByte (m : Memory) (c : Cursor) : Except CmdError (Byte × Cursor) :=
  if curRem c < 1 then .error .truncatedInput
  else .ok (Memory.byte m c.off, { off := c.off + 1, lim := c.lim })

/-- R93 `CurReadN`: exactly n bytes, never fewer, never padded (R99). -/
def curReadN (m : Memory) (c : Cursor) (n : Nat) : Except CmdError (List Byte × Cursor) :=
  if curRem c < n then .error .truncatedInput
  else .ok (memRead m c.off n, { off := c.off + n, lim := c.lim })

/-- R94 `CurReadLE32`: the 4-byte little-endian read, unsigned. -/
def curReadLE32 (m : Memory) (c : Cursor) : Except CmdError (Word × Cursor) :=
  match curReadN m c Config.prefixBytes with
  | .error e => .error e
  | .ok (bs, c') => .ok (BitVec.ofNat 32 (le bs), c')

/-- R95 `CurSlice`: the sub-cursor of n bytes, and the cursor advanced past them. -/
def curSlice (c : Cursor) (n : Nat) : Except CmdError (Cursor × Cursor) :=
  if curRem c < n then .error .truncatedInput
  else .ok ({ off := c.off, lim := c.off + n }, { off := c.off + n, lim := c.lim })

/-- R75 `arg`: the latched operand, 32 bits unsigned. -/
def State.operand (s : State) : Word := s.pend.arg

/-- R19, R77: a command with a width field goes on with that width, or raises `IllegalParameter` before
any byte is read. -/
def withLegalWidth {α : Type} (bw : BitVec 6) (k : Nat → Except CmdError α) : Except CmdError α :=
  if Config.bwMax < bw.toNat then .error .illegalParameter else k bw.toNat

/-- R106, R113: a header's count, `h >> 1`. Bit 0 does not affect it (90_conflicts.md C2). -/
def headerCount (h : Word) : Nat := h.toNat / 2

/-- R83, R113: bytes of an RLE value, `ceil(bw / 8)`. -/
def rleWidth (bw : Nat) : Nat := (bw + 7) / 8

end Sys2Proof.Machine
end

