-- ==== Sys2Proof/Machine/CursorCmds.lean ====
section
/-! DEFINITION. The commands that expose the cursor: RDBYTE, RDN, RDU32 (40_cursor.md R96 to R98). -/

namespace Sys2Proof.Machine

/-- R96, pseudocode. -/
def rdbyteOutcome (m : Memory) (c : Cursor) : Except CmdError CmdOk :=
  match curReadByte m c with
  | .error e => .error e
  | .ok (b, c') => .ok { result := b.setWidth 32, values := [], cur := c' }

/-- R97, pseudocode: each byte is one value, zero-extended to 64 bits, in address order. -/
def rdnOutcome (m : Memory) (c : Cursor) (n : Word) : Except CmdError CmdOk :=
  match curReadN m c n.toNat with
  | .error e => .error e
  | .ok (bs, c') => .ok { result := 0, values := bs.map (fun b => b.setWidth 64), cur := c' }

/-- R98, pseudocode. -/
def rdu32Outcome (m : Memory) (c : Cursor) : Except CmdError CmdOk :=
  match curReadLE32 m c with
  | .error e => .error e
  | .ok (v, c') => .ok { result := v, values := [], cur := c' }

/-- RDBYTE (R96). -/
def execRdbyte (s : State) : Host.Outcome State Fault Refusal :=
  s.settle (rdbyteOutcome s.buf s.mainCursor)

/-- RDN (R97): the latched ARG is the byte count. -/
def execRdn (s : State) : Host.Outcome State Fault Refusal :=
  s.settle (rdnOutcome s.buf s.mainCursor s.operand)

/-- RDU32 (R98). -/
def execRdu32 (s : State) : Host.Outcome State Fault Refusal :=
  s.settle (rdu32Outcome s.buf s.mainCursor)

end Sys2Proof.Machine
end

