-- ==== Sys2Proof/Machine/BitPack.lean ====
section
/-! DEFINITION. The bit-packed unpacker (42_bitpack.md R106 to R112) and the command BITPACK. -/

namespace Sys2Proof.Machine

/-- Bit `p` of a body, LSB-first (R52, R107): bit `p mod 8` of byte `p div 8`. -/
def bodyBit (bs : List Byte) (p : Nat) : Bool := (bs.getD (p / 8) 0).getLsbD (p % 8)

/-- R107 `Unpack(s, bw, v)`: the number whose bit i, for i < bw, is body bit `v·bw + i`. -/
def unpack (bs : List Byte) (bw v : Nat) : Nat :=
  ((List.range bw).map fun i => (bodyBit bs (v * bw + i)).toNat * 2 ^ i).sum

/-- R110 `BitPackRun`: the whole header is passed, and shifted here (R106). -/
def bitPackRun (m : Memory) (c : Cursor) (h : Word) (bw : Nat) :
    Except CmdError (List Val × Cursor) :=
  let g := headerCount h
  let count := Config.group * g
  if bw = 0 then .ok (List.replicate count 0, c)
  else
    match curReadN m c (g * bw) with
    | .error e => .error e
    | .ok (bs, c') => .ok ((List.range count).map fun v => BitVec.ofNat 64 (unpack bs bw v), c')

/-- R111, pseudocode. -/
def bitpackOutcome (m : Memory) (c : Cursor) (h : Word) (bw : Nat) : Except CmdError CmdOk :=
  match bitPackRun m c h bw with
  | .error e => .error e
  | .ok (vals, c') => .ok { result := 0, values := vals, cur := c' }

/-- BITPACK (R111): the latched ARG is the run header. -/
def execBitpack (bw : BitVec 6) (s : State) : Host.Outcome State Fault Refusal :=
  s.settle (withLegalWidth bw (bitpackOutcome s.buf s.mainCursor s.operand))

end Sys2Proof.Machine
end

