-- ==== Sys2Proof/Machine/Rle.lean ====
section
/-! DEFINITION. The RLE run decoder (43_rle.md R113 to R117) and the command RLE. -/

namespace Sys2Proof.Machine

/-- R114 `RleRun`: the value is widened to 4 bytes with zero bytes and not masked to bw bits (R115). -/
def rleRun (m : Memory) (c : Cursor) (h : Word) (bw : Nat) : Except CmdError (List Val × Cursor) :=
  let width := rleWidth bw
  match curReadN m c width with
  | .error e => .error e
  | .ok (bs, c') =>
    let value := le (bs ++ List.replicate (4 - width) 0)
    .ok (List.replicate (headerCount h) (BitVec.ofNat 64 value), c')

/-- R117, pseudocode. -/
def rleOutcome (m : Memory) (c : Cursor) (h : Word) (bw : Nat) : Except CmdError CmdOk :=
  match rleRun m c h bw with
  | .error e => .error e
  | .ok (vals, c') => .ok { result := 0, values := vals, cur := c' }

/-- RLE (R117): the latched ARG is the run header. -/
def execRle (bw : BitVec 6) (s : State) : Host.Outcome State Fault Refusal :=
  s.settle (withLegalWidth bw (rleOutcome s.buf s.mainCursor s.operand))

end Sys2Proof.Machine
end

