-- ==== Sys2Proof/Machine/Varint.lean ====
section
/-! DEFINITION. The varint decoder (41_varint.md R100 to R105) and the command VARINT. -/

namespace Sys2Proof.Machine

/-- The 7-bit payload group of a varint byte (R79): b[6:0]. -/
def varintGroup (b : Byte) : Nat := b.toNat % 128

/-- The continuation bit of a varint byte (R79): b[7]. -/
def varintContinues (b : Byte) : Bool := b.getLsbD 7

/-- R100, the loop: from cursor `c` with `k` bytes read and the exact sum `acc`, at most `fuel` further
bytes. It gives the number of bytes, the sum, and the cursor after the terminating byte. -/
def varintLoop (m : Memory) : Nat → Cursor → Nat → Nat → Except CmdError (Nat × Nat × Cursor)
  | 0, _, _, _ => .error .truncatedInput
  | fuel + 1, c, k, acc =>
    match curReadByte m c with
    | .error e => .error e
    | .ok (b, c') =>
      let acc' := acc + varintGroup b * 2 ^ (7 * k)
      if varintContinues b then varintLoop m fuel c' (k + 1) acc' else .ok (k + 1, acc', c')

/-- R102: the value of a varint of `k` bytes and exact sum `acc`. Out of contract it is `drawn`. -/
def varintValue (k acc : Nat) (drawn : Word) : Word :=
  if k ≤ Config.varintMaxBytes ∧ acc < 2 ^ Config.varintBits then BitVec.ofNat 32 acc else drawn

/-- R100 `VarintRead`. The draw of an out-of-contract varint is that of this step (`epoch`) at the offset
the varint starts at, so two varints of one command draw independently (log 3). Each loop round reads a
byte, so the bytes remaining bound the rounds (R103: no other length bound). -/
def varintRead (m : Memory) (epoch : Nat) (c : Cursor) : Except CmdError (Word × Cursor) :=
  match varintLoop m (curRem c + 1) c 0 0 with
  | .error e => .error e
  | .ok (k, acc, c') => .ok (varintValue k acc (Config.draw epoch c.off), c')

/-- R104, pseudocode. -/
def varintOutcome (m : Memory) (epoch : Nat) (c : Cursor) : Except CmdError CmdOk :=
  match varintRead m epoch c with
  | .error e => .error e
  | .ok (v, c') => .ok { result := v, values := [], cur := c' }

/-- VARINT (R104). -/
def execVarint (s : State) : Host.Outcome State Fault Refusal :=
  s.settle (varintOutcome s.buf s.draws s.mainCursor)

end Sys2Proof.Machine
end

