-- ==== Sys2Proof/Machine/Hybrid.lean ====
section
/-! DEFINITION. The hybrid stream (44_hybrid.md R118 to R128): the two run kinds, the loop over the runs of
a payload, and the commands HYB.P and HYB.L. -/

namespace Sys2Proof.Machine

/-- R121, the appending of one run's values: `vals <- vals ++ vs`. -/
def StreamRegs.append (r : StreamRegs) (run : Except CmdError (List Val × Cursor)) :
    Except CmdError StreamRegs :=
  match run with
  | .error e => .error e
  | .ok (vs, c') => .ok { sub := c', vals := r.vals ++ vs }

/-- R122, R114: an RLE run of a payload. The decoder gets the whole header. -/
def runRleOn (m : Memory) (bw : Nat) (count : BitVec 31) (r : StreamRegs) :
    Except CmdError StreamRegs :=
  r.append (rleRun m r.sub (encode (.runRle count)) bw)

/-- R122, R110: a bit-packed run of a payload. The unpacker gets the whole header. -/
def runBpOn (m : Memory) (bw : Nat) (numGroups : BitVec 31) (r : StreamRegs) :
    Except CmdError StreamRegs :=
  r.append (bitPackRun m r.sub (encode (.runBp numGroups)) bw)

/-- R122: the header-driven dispatch, a two-way choice on h[0]. -/
def selectRun (m : Memory) (bw : Nat) (h : Word) (r : StreamRegs) : Except CmdError StreamRegs :=
  if h.getLsbD 0 then runBpOn m bw (h.extractLsb' 1 31) r
  else runRleOn m bw (h.extractLsb' 1 31) r

/-- R121, one round of the loop: a header, then its run. -/
def hybridRound (m : Memory) (epoch bw : Nat) (r : StreamRegs) : Except CmdError StreamRegs :=
  match varintRead m epoch r.sub with
  | .error e => .error e
  | .ok (h, sub) => selectRun m bw h { sub := sub, vals := r.vals }

/-- R121, the loop, for at most `fuel` rounds. Every round consumes at least one byte (R123), so the bytes
of the payload are fuel enough. -/
def hybridLoop (m : Memory) (epoch bw : Nat) : Nat → StreamRegs → Except CmdError StreamRegs
  | 0, r => if curRem r.sub = 0 then .ok r else .error .truncatedInput
  | fuel + 1, r =>
    if curRem r.sub = 0 then .ok r
    else
      match hybridRound m epoch bw r with
      | .error e => .error e
      | .ok r' => hybridLoop m epoch bw fuel r'

/-- R120, R121: the payload of n bytes at `c`, sliced out and decoded. The cursor advances past all of it
whatever the runs consume, and RESULT is n (R32). -/
def hybridPayload (m : Memory) (epoch bw : Nat) (n : Word) (c : Cursor) : Except CmdError CmdOk :=
  match curSlice c n.toNat with
  | .error e => .error e
  | .ok (sub, c') =>
    match hybridLoop m epoch bw n.toNat { sub := sub, vals := [] } with
    | .error e => .error e
    | .ok r => .ok { result := n, values := r.vals, cur := c' }

/-- R118, R126: LM = 0, the length is the 4-byte little-endian prefix. -/
def hybPOutcome (m : Memory) (epoch : Nat) (c : Cursor) (bw : Nat) : Except CmdError CmdOk :=
  match curReadLE32 m c with
  | .error e => .error e
  | .ok (n, c') => hybridPayload m epoch bw n c'

/-- R118, R127: LM = 1, the length is the latched ARG. -/
def hybLOutcome (m : Memory) (epoch : Nat) (c : Cursor) (n : Word) (bw : Nat) :
    Except CmdError CmdOk :=
  hybridPayload m epoch bw n c

/-- HYB.P (R126). -/
def execHybP (bw : BitVec 6) (s : State) : Host.Outcome State Fault Refusal :=
  s.settle (withLegalWidth bw (hybPOutcome s.buf s.draws s.mainCursor))

/-- HYB.L (R127). -/
def execHybL (bw : BitVec 6) (s : State) : Host.Outcome State Fault Refusal :=
  s.settle (withLegalWidth bw (hybLOutcome s.buf s.draws s.mainCursor s.operand))

/-- One run inside a hybrid command: on success the transient state moves on, on an error the whole
command rolls back (R124, R137). -/
def State.settleRun (s : State) (r : Except CmdError StreamRegs) : Host.Outcome State Fault Refusal :=
  match r with
  | .ok regs => .next { s with stream := regs }
  | .error e => .next (s.rollback e)

/-- RUN_RLE (R122): the run the header selects, on the transient state of the command in progress, with
the width of that command (log 7). -/
def execRunRle (count : BitVec 31) (s : State) : Host.Outcome State Fault Refusal :=
  s.settleRun (withLegalWidth s.pend.bw fun bw => runRleOn s.buf bw count s.stream)

/-- RUN_BP (R122): likewise for a bit-packed run. -/
def execRunBp (numGroups : BitVec 31) (s : State) : Host.Outcome State Fault Refusal :=
  s.settleRun (withLegalWidth s.pend.bw fun bw => runBpOn s.buf bw numGroups s.stream)

end Sys2Proof.Machine
end

