-- ==== Sys2Proof/Machine/Dispatch.lean ====
section
/-! DEFINITION. The dispatch of 30_encoding.md R73 and 44_hybrid.md R122: one arm per row of the opcode
table. -/

namespace Sys2Proof.Machine

def exec (i : Instr) (s : State) : Host.Outcome State Fault Refusal :=
  match i with
  | .rdbyte => Sys2Proof.Machine.execRdbyte s
  | .rdn => Sys2Proof.Machine.execRdn s
  | .rdu32 => Sys2Proof.Machine.execRdu32 s
  | .varint => Sys2Proof.Machine.execVarint s
  | .bitpack bw => Sys2Proof.Machine.execBitpack bw s
  | .rle bw => Sys2Proof.Machine.execRle bw s
  | .hybP bw => Sys2Proof.Machine.execHybP bw s
  | .hybL bw => Sys2Proof.Machine.execHybL bw s
  | .runRle count => Sys2Proof.Machine.execRunRle count s
  | .runBp numGroups => Sys2Proof.Machine.execRunBp numGroups s

end Sys2Proof.Machine
end

