-- ==== Sys2Proof/Machine/Flags.lean ====
section
/-! DEFINITION. The flags of STATUS (10_state.md R28, R37). No command reads or writes any other flag, and
HDB has no condition codes (R37). -/

namespace Sys2Proof.Machine

/-- R37: OUT holds more than OUT_DEPTH values. Never, when OUT_DEPTH is ∞. -/
def outAboveDepth (depth : Option Nat) (n : Nat) : Bool :=
  match depth with
  | none => false
  | some d => decide (d < n)

/-- R37 BUSY, computed. -/
def State.busy (s : State) : Bool := s.pend.valid || outAboveDepth s.params.outDepth s.out.length

/-- R37 OUTNE, computed. -/
def State.outne (s : State) : Bool := !s.out.isEmpty

/-- R28: the word STATUS reads as, with `err` in bits 7:4. Reserved bits read 0. -/
def State.statusWord (s : State) (err : BitVec 4) : Word :=
  (0 : BitVec 23) ++ BitVec.ofBool s.outne ++ err ++ (0 : BitVec 2) ++ BitVec.ofBool s.wob ++
    BitVec.ofBool s.busy

/-- R42, R44: a write that is ignored because BUSY = 1 sets WOB and changes nothing else. -/
def State.markIgnored (s : State) : State := { s with wob := true }

/-- R28: a write of STATUS clears WOB when bit 1 of the written word is 1; every other bit is ignored. -/
def State.writeStatus (s : State) (d : Word) : State :=
  { s with wob := s.wob && !d.getLsbD 1 }

end Sys2Proof.Machine
end

