-- ==== Sys2Proof/Machine/HostActions.lean ====
section
/-! DEFINITION. The host's actions (10_state.md R21, R41 to R46) over the register map (R25 to R36), BUF
and OUT. Each answers to the reply list (log 2). -/

namespace Sys2Proof.Machine

/-- R25: the register at a word offset of the window. -/
def regAt (off : Nat) : Reg :=
  match off with
  | 0x00 => .cmd
  | 0x04 => .arg
  | 0x08 => .status
  | 0x0C => .result
  | 0x10 => .off
  | 0x14 => .len
  | 0x18 => .rem
  | 0x1C => .consumed
  | 0x20 => .outcntLo
  | 0x24 => .outcntHi
  | 0x28 => .bufsz
  | _ => .reserved

/-- R25, R56: an aligned 32-bit word of the 256-byte window. Every other access is outside the interface. -/
def regAccessInside (off width : Nat) : Bool :=
  decide (off % 4 = 0) && decide (width = 32) && decide (off < 0x100)

/-- R41: the registers whose reads in the busy window are unspecified as a whole. -/
def Reg.drawnWhileBusy : Reg → Bool
  | .cmd => false
  | .arg => false
  | .status => false
  | .result => true
  | .off => true
  | .len => false
  | .rem => true
  | .consumed => true
  | .outcntLo => true
  | .outcntHi => true
  | .bufsz => false
  | .reserved => false

/-- R26 to R36: what a register reads as while BUSY = 0. -/
def State.readIdle (s : State) : Reg → Word
  | .cmd => s.cmd
  | .arg => s.arg
  | .status => s.statusWord s.err
  | .result => s.result
  | .off => s.off
  | .len => s.len
  | .rem => s.rem
  | .consumed => s.consumed
  | .outcntLo => s.outcnt.extractLsb' 0 32
  | .outcntHi => s.outcnt.extractLsb' 32 32
  | .bufsz => BitVec.ofNat 32 s.params.bufSize
  | .reserved => 0

/-- R41: what a register reads as while BUSY = 1, given this read's draw. -/
def State.readBusy (s : State) (drawn : Word) (r : Reg) : Word :=
  if r.drawnWhileBusy then drawn
  else
    match r with
    | .status => s.statusWord (drawn.extractLsb' 0 4)
    | _ => s.readIdle r

/-- R41 `RegRead`. It changes nothing of the unit; a read in the busy window takes a draw (log 11). -/
def regRead (r : Reg) (s : State) : State :=
  if s.busy then
    { s with replies := s.replies ++ [.reg (s.readBusy (Config.draw s.draws 0) r)], draws := s.draws + 1 }
  else { s with replies := s.replies ++ [.reg (s.readIdle r)] }

/-- R42: a write that BUSY = 1 holds off is ignored and sets WOB. -/
def State.unlessBusy (s t : State) : State := if s.busy then s.markIgnored else t

/-- R30: LEN stores `min(d, BUF_SIZE)`. -/
def clampLen (p : Config.Params) (d : Word) : Word := BitVec.ofNat 32 (min d.toNat p.bufSize)

/-- R26 to R36, R42, R43: `RegWrite`. Writes of read-only and reserved locations are ignored and never set
WOB. -/
def regWrite (r : Reg) (d : Word) (s : State) : State :=
  match r with
  | .cmd => s.unlessBusy (s.latchCommand d)
  | .arg => s.unlessBusy { s with arg := d }
  | .status => s.writeStatus d
  | .result => s
  | .off => s.unlessBusy { s with off := d }
  | .len => s.unlessBusy { s with len := clampLen s.params d }
  | .rem => s
  | .consumed => s
  | .outcntLo => s
  | .outcntHi => s
  | .bufsz => s
  | .reserved => s

/-- R44 `BufWrite`. -/
def bufWrite (a : Nat) (b : Byte) (s : State) : State :=
  s.unlessBusy (if a < s.params.bufSize then { s with buf := Memory.write s.buf a b } else s)

/-- R45 `BufRead`. -/
def bufRead (a : Nat) (s : State) : State :=
  { s with
    replies := s.replies ++ [.byte (if a < s.params.bufSize then Memory.byte s.buf a else 0)] }

/-- R46 `OutPop`: the head of OUT. With OUT empty the action has no step; `hostEnabled` says so. -/
def outPop (s : State) : State :=
  match s.out with
  | [] => s
  | v :: rest => { s with out := rest, replies := s.replies ++ [.out v] }

/-- R46: `OutPop` waits while OUT is empty. Every other action is always enabled. -/
def hostEnabled (a : HostAction) (s : State) : Bool :=
  match a with
  | .regRead _ _ => true
  | .regWrite _ _ _ => true
  | .bufWrite _ _ => true
  | .bufRead _ => true
  | .outPop => s.outne

/-- R21, R56: one host action as one step; a register access outside the interface is refused (log 10). -/
def hostAct (a : HostAction) (s : State) : Host.Outcome State Fault Refusal :=
  match a with
  | .regRead off width =>
    if regAccessInside off width then .next (regRead (regAt off) s)
    else .refused .registerAccessOutsideInterface
  | .regWrite off width d =>
    if regAccessInside off width then .next (regWrite (regAt off) d s)
    else .refused .registerAccessOutsideInterface
  | .bufWrite a b => .next (bufWrite a b s)
  | .bufRead a => .next (bufRead a s)
  | .outPop => .next (outPop s)

end Sys2Proof.Machine
end

