-- ==== Sys2Proof/Machine/Turns.lean ====
section
/-! DEFINITION. Whose turn it is and what the turn does (10_state.md R20 to R22, 70_reset_and_hazards.md
R150, R161; log 1). -/

namespace Sys2Proof.Machine

/-- R22 `Exec`: the latched word is decoded and executed; an illegal word raises `IllegalCommand` before
anything is read (R76, R131). -/
def execLatched (s : State) : Host.Outcome State Fault Refusal :=
  match decodeFields s.pend.op s.pend.bw s.pend.lm s.pend.rsv with
  | .ok i => exec i s
  | .error _ => .next (s.rollback .illegalCommand)

/-- The unit's move: `Exec` exactly when a command is latched (R22), otherwise nothing (R148). -/
def unitTurn (s : State) : Host.Outcome State Fault Refusal :=
  if s.pend.valid then execLatched s else .next s

/-- What is left of a WAIT whose poll read BUSY = 1: the WAIT, with one poll fewer ahead of the unit's move;
with none left the unit moves next, so that Exec is weakly fair (R161) and no number of polls is fixed. -/
def waitAgain (ahead : Nat) (rest : List Turn) : List Turn :=
  match ahead with
  | 0 => .unit :: .wait 0 :: rest
  | k + 1 => .wait k :: rest

/-- R89 `WAIT`: one `RegRead(0x08)`, which ends the loop when it reads BUSY = 0. Without a pop a back-pressured
OUT keeps it for ever (R159). -/
def waitTurn (ahead : Nat) (rest : List Turn) (s : State) : State :=
  regRead .status { s with script := if s.busy then waitAgain ahead rest else rest }

/-- One turn (log 1). With no turn left, or with the host waiting on an empty OUT (R46), the unit moves. -/
def takeTurn (s : State) : Host.Outcome State Fault Refusal :=
  match s.script with
  | [] => unitTurn s
  | .unit :: rest => unitTurn { s with script := rest }
  | .wait ahead :: rest => .next (waitTurn ahead rest s)
  | .reset :: rest => .next (State.resetUnit { s with script := rest })
  | .host a :: rest =>
    if hostEnabled a s then hostAct a { s with script := rest } else unitTurn s

end Sys2Proof.Machine
end

