-- ==== Sys2Proof/Machine/Step.lean ====
section
/-! DEFINITION. One step of the machine, and the placing of a word of the opcode table where the unit takes
its next instruction. -/

namespace Sys2Proof.Machine

/-- One step: one turn of the host, the unit or the reset input (10_state.md R21, R22; log 1). -/
def step (s : State) : Host.Outcome State Fault Refusal := takeTurn s

/-- `s` with the table word latched as the command the unit executes in the very next step, or, for a run
header, with the payload that holds it latched (log 8). -/
def State.withFetchWord (s : State) (nbits w : Nat) : State := s.placeTableWord nbits w

end Sys2Proof.Machine
end

