-- ==== Sys2Proof/Machine/Assembler.lean ====
section
/-! DEFINITION. The assembler of 30_encoding.md R88 to R90: a line becomes the host actions it stands for,
or is refused. A line is parsed already (log 13). Which operands of directives are refused is log 14. -/

namespace Sys2Proof.Machine

/-- One line of assembler: the commands of R88, the directives of R89, the pseudo-instructions of R90. -/
inductive AsmLine where
  | rdbyte
  | rdn (n : Nat)
  | rdu32
  | varint
  | bitpack (h bw : Nat)
  | rle (h bw : Nat)
  | hybP (bw : Nat)
  | hybL (n bw : Nat)
  | dotBuf (a : Nat) (bytes : List Byte)
  | dotLen (n : Nat)
  | dotOff (n : Nat)
  | wait (ahead : Nat)
  | pop
  | clrwob
  | runRle (c bw : Nat)
  | runBp (g bw : Nat)
  | levels (m : Nat)
  | skip (n : Nat)
  | seek (p : Nat)
deriving DecidableEq, Repr

/-- R18 `bitWidthOf(m)`: the least w with m < 2^w. -/
def bitWidthOf (m : Nat) : Nat := if m = 0 then 0 else Nat.log2 m + 1

/-- A 32-bit register write by the host. -/
def writeReg (off : Nat) (d : Word) : Turn := .host (.regWrite off 32 d)

/-- R88: an operand that does not fit 32 bits is refused. -/
def asmOperand (n : Nat) : Option Word := if n < 2 ^ 32 then some (BitVec.ofNat 32 n) else none

/-- R88: a bit width above 32 is refused. -/
def asmWidth (bw : Nat) : Option (BitVec 6) :=
  if bw ≤ Config.bwMax then some (BitVec.ofNat 6 bw) else none

/-- R88: a line without an ARG operand. -/
def asmPlain (i : Instr) : Option (List Turn) := some [writeReg 0x00 (encode i)]

/-- R88: a line with an ARG operand: ARG is written first, then CMD. -/
def asmWithArg (n : Nat) (i : Instr) : Option (List Turn) :=
  match asmOperand n with
  | none => none
  | some d => some [writeReg 0x04 d, writeReg 0x00 (encode i)]

/-- R88: a line with a width and an ARG operand. -/
def asmRun (n bw : Nat) (i : BitVec 6 → Instr) : Option (List Turn) :=
  match asmWidth bw with
  | none => none
  | some w => asmWithArg n (i w)

/-- R88: `HYB.P bw`. -/
def asmHybP (bw : Nat) : Option (List Turn) :=
  match asmWidth bw with
  | none => none
  | some w => asmPlain (.hybP w)

/-- R89: a directive that writes one register. DESIGN CHOICE (log 14): R88's refusal of an operand that does
not fit 32 bits is taken to reach it, since `RegWrite` writes a u32. -/
def asmDirective (off n : Nat) : Option (List Turn) :=
  match asmOperand n with
  | none => none
  | some d => some [writeReg off d]

/-- R89: `.buf a, b0, b1, …`. DESIGN CHOICE (log 14): no address is refused, since `BufWrite` has no bound of
its own and R44 ignores a write at or above BUF_SIZE. -/
def asmBytes : Nat → List Byte → List Turn
  | _, [] => []
  | a, b :: bs => .host (.bufWrite a b) :: asmBytes (a + 1) bs

/-- R88 to R90: the host actions of a line, or none where the assembler refuses it. WAIT is the turn that polls
until BUSY reads 0 (`waitTurn`); its number says only how the unit's move falls among the polls (log 1).
Which operands of `.buf`, `.len`, `.off` and `SEEK` are refused is the model's choice (log 14). -/
def assemble : AsmLine → Option (List Turn)
  | .rdbyte => asmPlain .rdbyte
  | .rdn n => asmWithArg n .rdn
  | .rdu32 => asmPlain .rdu32
  | .varint => asmPlain .varint
  | .bitpack h bw => asmRun h bw .bitpack
  | .rle h bw => asmRun h bw .rle
  | .hybP bw => asmHybP bw
  | .hybL n bw => asmRun n bw .hybL
  | .dotBuf a bytes => some (asmBytes a bytes)
  | .dotLen n => asmDirective 0x14 n
  | .dotOff n => asmDirective 0x10 n
  | .wait ahead => some [.wait ahead]
  | .pop => some [.host .outPop]
  | .clrwob => some [writeReg 0x08 0x2]
  | .runRle c bw => asmRun (c * 2) bw .rle
  | .runBp g bw => asmRun (g * 2 + 1) bw .bitpack
  | .levels m => asmHybP (bitWidthOf m)
  | .skip n => (asmWithArg n .rdn).map (· ++ List.replicate n (.host .outPop))
  | .seek p => asmDirective 0x10 p

end Sys2Proof.Machine
end

