-- ==== Sys2Proof/Safety.lean ====
section
/-! DEFINITION. The terms the claims about HDB are stated in: the states a command leaves (60_exceptions.md
R136, R137), the invariant of every run, and what bytes of BUF a varint (41_varint.md R100) and a hybrid
payload (30_encoding.md R81, 44_hybrid.md R121) are. -/

namespace Sys2Proof.Machine

/-- R136, in full: the state a successful command leaves when it consumed `k` bytes. -/
def State.committed (s : State) (k : Nat) (result : Word) (values : List Val) : State :=
  { s with
    off := s.off + BitVec.ofNat 32 k
    result := result
    consumed := BitVec.ofNat 32 k
    outcnt := BitVec.ofNat 64 values.length
    out := s.out ++ values
    err := 0
    pend := { s.pend with valid := false }
    stream := StreamRegs.idle
    draws := s.draws + 1 }

/-- R137, in full: the state a failed command leaves, with its error code (R129). -/
def State.rolledBack (s : State) (code : BitVec 4) : State :=
  { s with
    result := 0
    consumed := 0
    outcnt := 0
    err := code
    pend := { s.pend with valid := false }
    stream := StreamRegs.idle
    draws := s.draws + 1 }

/-- R91, R31: the bytes that remain under the main cursor, as a number. -/
def State.remaining (s : State) : Nat := s.len.toNat - s.off.toNat

/-- What every step keeps. Each field cites the rule that gives it. -/
structure State.Inv (s : State) : Prop where
  /-- R7: the parameters are in their ranges. -/
  params_legal : s.params.legal = true
  /-- R30: LEN never exceeds BUF_SIZE. -/
  len_le : s.len.toNat ≤ s.params.bufSize
  /-- BUF is in canonical form (log 4). -/
  buf_wf : Memory.wf s.buf
  /-- R44, R49: only addresses below BUF_SIZE are ever written. -/
  buf_lt : ∀ c ∈ s.buf, c.1 < s.params.bufSize
  /-- R40: bits 63:32 of every element of OUT are 0. -/
  out_lt : ∀ v ∈ s.out, v.toNat < 2 ^ 32
  /-- R129: codes 4 to 15 are never produced. -/
  err_le : s.err.toNat ≤ 3
  /-- R137: after a failed command RESULT, CONSUMED and OUTCNT are 0 until the next command. -/
  failed_zero : s.err ≠ 0 → s.result = 0 ∧ s.consumed = 0 ∧ s.outcnt = 0
  /-- R34, R71: OUTCNT is below 2^63. -/
  outcnt_lt : s.outcnt.toNat < 2 ^ 63
  /-- R39: no transient state survives a step. -/
  stream_idle : s.stream = StreamRegs.idle
  /-- R42, R43: while a command is latched, the latch holds the fields of CMD and the value of ARG. -/
  latched : s.pend.valid = true → s.pend = Pend.ofWord s.cmd s.arg

/-- The exact sum of the varint of `k` bytes at `off` (R79): byte j gives its low 7 bits, shifted by 7j. -/
def varintSum (m : Memory) (off k : Nat) : Nat :=
  ((List.range k).map fun j => (Memory.byte m (off + j)).toNat % 128 * 2 ^ (7 * j)).sum

/-- R80, R100, R102: the `k` bytes at `off`, all below `lim`, are one varint of value `v` in the step
`epoch`: the first k − 1 have bit 7 set, the last has it clear. Out of contract the value is the free draw. -/
def VarintAt (m : Memory) (epoch off lim k : Nat) (v : Word) : Prop :=
  0 < k ∧ off + k ≤ lim ∧
    (∀ j, j + 1 < k → (Memory.byte m (off + j)).getLsbD 7 = true) ∧
    (Memory.byte m (off + (k - 1))).getLsbD 7 = false ∧
    v = if k ≤ 5 ∧ varintSum m off k < 2 ^ 32 then BitVec.ofNat 32 (varintSum m off k)
      else Config.draw epoch off

/-- R83, R84: the bytes of the body that header `h` asks for. -/
def bodyLength (bw : Nat) (h : Word) : Nat :=
  if h.getLsbD 0 then h.toNat / 2 * bw else (bw + 7) / 8

/-- R83, R84, R107, R114: the values of the run with header `h` and that body. -/
def runValues (bw : Nat) (h : Word) (body : List Byte) : List Val :=
  if h.getLsbD 0 then
    (List.range (8 * (h.toNat / 2))).map fun v => BitVec.ofNat 64 (unpack body bw v)
  else List.replicate (h.toNat / 2) (BitVec.ofNat 64 (le body))

/-- R81, R121, R124: the bytes from `off` up to `lim` are runs back to back that end exactly at `lim`, and
the list is their values in encounter order. -/
inductive StreamOf (m : Memory) (epoch bw : Nat) : Nat → Nat → List Val → Prop where
  | done (lim : Nat) : StreamOf m epoch bw lim lim []
  | run {off lim k : Nat} {h : Word} {vs : List Val} :
      VarintAt m epoch off lim k h →
      off + k + bodyLength bw h ≤ lim →
      StreamOf m epoch bw (off + k + bodyLength bw h) lim vs →
      StreamOf m epoch bw off lim
        (runValues bw h (memRead m (off + k) (bodyLength bw h)) ++ vs)

/-- A run as a writer puts it into a payload (R87): a header and the body it asks for. -/
structure Run where
  header : Word
  body : List Byte
deriving DecidableEq, Repr

/-- The body has the length its header asks for at width `bw` (R83, R84). -/
def Run.fits (bw : Nat) (r : Run) : Prop := r.body.length = bodyLength bw r.header

/-- R81, R87: the bytes of a payload that holds these runs. -/
def payloadBytes (runs : List Run) : List Byte :=
  runs.flatMap fun r => varintBytes r.header ++ r.body

/-- R125: the values of these runs in encounter order. -/
def payloadValues (bw : Nat) (runs : List Run) : List Val :=
  runs.flatMap fun r => runValues bw r.header r.body

/-- R56: no turn of the script is a register access outside the interface. -/
def accessesInside (script : List Turn) : Prop :=
  ∀ t ∈ script,
    match t with
    | .host (.regRead off width) => regAccessInside off width = true
    | .host (.regWrite off width _) => regAccessInside off width = true
    | _ => True

/-- How many steps a turn takes at most while a command is latched, the unit's move included: a WAIT polls
`ahead + 1` times before it. -/
def Turn.moves : Turn → Nat
  | .host _ => 1
  | .wait ahead => ahead + 2
  | .unit => 1
  | .reset => 1

/-- The most steps a script takes before the unit has moved. -/
def scriptMoves (script : List Turn) : Nat := (script.map Turn.moves).sum

/-- The turns neither pop OUT nor reset the unit (R159). -/
def neverDrains (script : List Turn) : Prop :=
  ∀ t ∈ script, t ≠ .host .outPop ∧ t ≠ .reset

end Sys2Proof.Machine
end

