-- ==== Sys2Proof/Certificates/Slice0/Obligations.lean ====
section
/-! DEFINITION. The statements about HDB for the provers. Each docstring names the rules it formalises; the
terms (`State.committed`, `State.rolledBack`, `VarintAt`, `StreamOf`, `State.Inv`) are those of
Sys2Proof/Safety.lean. A value `Config.draw …` or `Config.powerUpByte …` is free: a statement that names
one holds for every value of it. `State.committed` and `State.rolledBack` also move the model's draw counter on
(log 3) and leave no transient state (log 7): those two clauses are the model's, not the spec's. -/

open Sys2Proof Sys2Proof.Machine

/-! ## Encoding -/

/-- R72 to R76: decoding and encoding of command words agree in both directions, every width 0 to 63
included. -/
def Obligations.CommandDecodesIffItIsTheEncoding : Prop :=
  ∀ (w : Word) (i : Instr), decodeCommand w = .ok i ↔ i.isCommand = true ∧ encode i = w

/-- R74: a word spells a command exactly when `w & mask = match`, for each of the eight rows. -/
def Obligations.WordSpellsCommandByMatchAndMask : Prop :=
  ∀ w : Word,
    (decodeCommand w = .ok .rdbyte ↔ w &&& 0xFFFFFFFF = 0x00000001) ∧
    (decodeCommand w = .ok .rdn ↔ w &&& 0xFFFFFFFF = 0x00000002) ∧
    (decodeCommand w = .ok .rdu32 ↔ w &&& 0xFFFFFFFF = 0x00000003) ∧
    (decodeCommand w = .ok .varint ↔ w &&& 0xFFFFFFFF = 0x00000004) ∧
    ((∃ bw, decodeCommand w = .ok (.bitpack bw)) ↔ w &&& 0xFFFFFC0F = 0x00000005) ∧
    ((∃ bw, decodeCommand w = .ok (.rle bw)) ↔ w &&& 0xFFFFFC0F = 0x00000006) ∧
    ((∃ bw, decodeCommand w = .ok (.hybP bw)) ↔ w &&& 0xFFFFFC0F = 0x00000007) ∧
    ((∃ bw, decodeCommand w = .ok (.hybL bw)) ↔ w &&& 0xFFFFFC0F = 0x00000407) ∧
    (∀ i bw, decodeCommand w = .ok i → i.width = some bw → bw.toNat = w.toNat / 16 % 64)

/-- R76: when a latched word is illegal. The fields are read off the number w: OP = w mod 16,
BW = w div 16 mod 64, LM = w div 1024 mod 2, RSV = w div 2048. Executing it (the unit's move) raises
`IllegalCommand`, code 2: the whole rollback, whatever BUF holds, with OFF and OUT unchanged. -/
def Obligations.IllegalWordRaisesIllegalCommand : Prop :=
  ∀ (w : Word) (s : State),
    s.pend = Pend.ofWord w s.pend.arg →
    (w.toNat % 16 = 0 ∨ 8 ≤ w.toNat % 16 ∨ w.toNat / 2048 ≠ 0 ∨
        (w.toNat / 16 % 64 ≠ 0 ∧ 1 ≤ w.toNat % 16 ∧ w.toNat % 16 ≤ 4) ∨
        (w.toNat / 1024 % 2 ≠ 0 ∧ w.toNat % 16 ≠ 7) ↔
      ∃ e, decodeCommand w = .error e) ∧
    ((∃ e, decodeCommand w = .error e) →
      unitTurn s = .next (s.rolledBack 2) ∧
      ∀ m : Memory, unitTurn { s with buf := m } = .next (State.rolledBack { s with buf := m } 2))

/-- R82, R122: the least significant bit of a header selects the run kind (RUN_RLE has match 0 and mask 1,
RUN_BP match 1 and mask 1), the other bits are its count, every header is a run, and every run's header is
read back as that run. -/
def Obligations.HeaderSelectsItsRun : Prop :=
  ∀ h : Word,
    (h.toNat % 2 = 0 → decodeHeader h = .runRle (BitVec.ofNat 31 (h.toNat / 2))) ∧
    (h.toNat % 2 = 1 → decodeHeader h = .runBp (BitVec.ofNat 31 (h.toNat / 2))) ∧
    ((∃ c, decodeHeader h = .runRle c) ↔ h &&& 1 = 0) ∧
    ((∃ g, decodeHeader h = .runBp g) ↔ h &&& 1 = 1) ∧
    (∀ i, decodeHeader h = i ↔ i.isRun = true ∧ encode i = h)

/-- R74, R82, R88: words written out from the spec's encodings. A sanity statement. -/
def Obligations.WrittenWordsDecode : Prop :=
  decodeCommand 0x00000001 = .ok .rdbyte ∧
  decodeCommand 0x00000002 = .ok .rdn ∧
  decodeCommand 0x00000003 = .ok .rdu32 ∧
  decodeCommand 0x00000004 = .ok .varint ∧
  decodeCommand 0x00000035 = .ok (.bitpack 3) ∧
  decodeCommand 0x00000206 = .ok (.rle 32) ∧
  decodeCommand 0x00000037 = .ok (.hybP 3) ∧
  decodeCommand 0x00000437 = .ok (.hybL 3) ∧
  decodeHeader 6 = .runRle 3 ∧
  decodeHeader 3 = .runBp 1

/-! ## The cursor commands -/

/-- R96, RDBYTE: with a byte left it completes with that byte in RESULT; with none it raises
`TruncatedInput`. -/
def Obligations.RdbyteReadsOneByte : Prop :=
  ∀ s : State,
    (1 ≤ s.remaining →
      exec .rdbyte s =
        .next (s.committed 1 (BitVec.ofNat 32 (Memory.byte s.buf s.off.toNat).toNat) [])) ∧
    (s.remaining = 0 → exec .rdbyte s = .next (s.rolledBack 1))

/-- R97, RDN: with n bytes left it completes with the n bytes appended to OUT in address order; with fewer
it raises `TruncatedInput`. n = 0 completes even where OFF exceeds LEN, and n ≥ 2^31 always fails. -/
def Obligations.RdnAppendsTheBytes : Prop :=
  ∀ s : State,
    (s.pend.arg.toNat ≤ s.remaining →
      exec .rdn s =
        .next (s.committed s.pend.arg.toNat 0
          ((List.range s.pend.arg.toNat).map fun j =>
            BitVec.ofNat 64 (Memory.byte s.buf (s.off.toNat + j)).toNat))) ∧
    (s.remaining < s.pend.arg.toNat → exec .rdn s = .next (s.rolledBack 1)) ∧
    (s.Inv → 2 ^ 31 ≤ s.pend.arg.toNat → exec .rdn s = .next (s.rolledBack 1))

/-- R98, RDU32: with four bytes left it completes with their little-endian value in RESULT, unsigned; with
fewer it raises `TruncatedInput`. -/
def Obligations.Rdu32ReadsLittleEndian : Prop :=
  ∀ s : State,
    (4 ≤ s.remaining →
      exec .rdu32 s =
        .next (s.committed 4
          (BitVec.ofNat 32
            ((Memory.byte s.buf s.off.toNat).toNat
              + 2 ^ 8 * (Memory.byte s.buf (s.off.toNat + 1)).toNat
              + 2 ^ 16 * (Memory.byte s.buf (s.off.toNat + 2)).toNat
              + 2 ^ 24 * (Memory.byte s.buf (s.off.toNat + 3)).toNat)) [])) ∧
    (s.remaining < 4 → exec .rdu32 s = .next (s.rolledBack 1))

/-- R54: RDU32, four RDBYTE commands in a row, and RLE values of width w over the same bytes b0 to b3 agree:
RDU32 gives LE(b0, b1, b2, b3), the RDBYTEs give b0, b1, b2, b3 in that order, and the RLE value of w bytes
is LE of the first w, which is the RDU32 value mod 2^(8w). -/
def Obligations.MixedWidthViewsAgree : Prop :=
  ∀ (s t s1 s2 s3 s4 : State) (bw : BitVec 6),
    exec .rdu32 s = .next t → t.err = 0 →
    exec .rdbyte s = .next s1 → exec .rdbyte s1 = .next s2 →
    exec .rdbyte s2 = .next s3 → exec .rdbyte s3 = .next s4 →
    bw.toNat ≤ 32 →
    s4.err = 0 ∧ s4.off = t.off ∧
    t.result.toNat = le (memRead s.buf s.off.toNat 4) ∧
    [s1.result.toNat, s2.result.toNat, s3.result.toNat, s4.result.toNat] =
      (memRead s.buf s.off.toNat 4).map BitVec.toNat ∧
    ∃ u, exec (.rle bw) s = .next u ∧ u.err = 0 ∧
      ∀ v ∈ u.out.drop s.out.length,
        v.toNat = le (memRead s.buf s.off.toNat ((bw.toNat + 7) / 8)) ∧
        v.toNat = t.result.toNat % 2 ^ (8 * ((bw.toNat + 7) / 8))

/-! ## Varints -/

/-- R100, R102, R104, VARINT: over a varint of k bytes below LEN it completes, consuming exactly k bytes,
with its value in RESULT (the free draw when it is out of contract, and still no error). With k ≤ 4 the
sum is below 2^28; with k = 5 it is below 2^32 exactly when the fifth byte is at most 0x0F. -/
def Obligations.VarintDecodesOneVarint : Prop :=
  ∀ (s : State) (k : Nat) (v : Word),
    VarintAt s.buf s.draws s.off.toNat s.len.toNat k v →
    exec .varint s = .next (s.committed k v []) ∧
    (k ≤ 4 → varintSum s.buf s.off.toNat k < 2 ^ 28) ∧
    (k = 5 →
      (varintSum s.buf s.off.toNat k < 2 ^ 32 ↔
        (Memory.byte s.buf (s.off.toNat + 4)).toNat ≤ 0x0F))

/-- R103: a varint fails exactly where its cursor ends before a byte with bit 7 clear, an empty cursor
included, and then it is `TruncatedInput`; no length bound applies before the cursor's limit. Said of the
primitive over any cursor, and of VARINT, which rolls back or completes. -/
def Obligations.VarintFailsOnlyWhenUnterminated : Prop :=
  (∀ (m : Memory) (epoch : Nat) (c : Cursor),
    ((∀ a, c.off ≤ a → a < c.lim → (Memory.byte m a).getLsbD 7 = true) ↔
      varintRead m epoch c = .error .truncatedInput) ∧
    (∀ a, c.off ≤ a → a < c.lim → (Memory.byte m a).getLsbD 7 = false →
      ∃ v c', varintRead m epoch c = .ok (v, c') ∧ c'.off ≤ a + 1 ∧ c'.lim = c.lim)) ∧
  ∀ s : State,
    ((∀ a, s.off.toNat ≤ a → a < s.len.toNat → (Memory.byte s.buf a).getLsbD 7 = true) →
      exec .varint s = .next (s.rolledBack 1)) ∧
    (∀ a, s.off.toNat ≤ a → a < s.len.toNat → (Memory.byte s.buf a).getLsbD 7 = false →
      ∃ k v, k ≤ a + 1 - s.off.toNat ∧ exec .varint s = .next (s.committed k v []))

/-- R87, R105: every 32-bit value written as its canonical varint at OFF decodes to itself, whatever
follows it. -/
def Obligations.CanonicalVarintRoundTrip : Prop :=
  ∀ (s : State) (n : Word),
    memRead s.buf s.off.toNat (varintBytes n).length = varintBytes n →
    (varintBytes n).length ≤ s.remaining →
    exec .varint s = .next (s.committed (varintBytes n).length n [])

/-! ## Bit-packed and RLE runs -/

/-- R107: bit i of value v is bit (v·bw + i) mod 8 of byte (v·bw + i) div 8, and the closed form: the value
is the whole body, read little-endian, shifted right by v·bw and reduced mod 2^bw. Every value of a legal
width is below 2^32, and the element a run appends is that value in 64 bits. -/
def Obligations.UnpackIsTheBitsAndTheClosedForm : Prop :=
  ∀ (bs : List Byte) (bw v : Nat),
    (∀ i, (unpack bs bw v).testBit i =
      (decide (i < bw) && (bs.getD ((v * bw + i) / 8) 0).getLsbD ((v * bw + i) % 8))) ∧
    unpack bs bw v = le bs / 2 ^ (v * bw) % 2 ^ bw ∧
    unpack bs bw v < 2 ^ bw ∧ (bw ≤ 32 → unpack bs bw v < 2 ^ 32) ∧
    ∀ (m : Memory) (c c' : Cursor) (h : Word) (vals : List Val),
      0 < bw → bw ≤ 32 → bitPackRun m c h bw = .ok (vals, c') →
      v < 8 * (h.toNat / 2) →
      (vals.getD v 0).toNat = unpack (memRead m c.off (h.toNat / 2 * bw)) bw v

/-- R111, BITPACK: `IllegalParameter` for bw > 32; `TruncatedInput` when (arg >> 1)·bw exceeds what
remains; otherwise it completes with the 8·(arg >> 1) unpacked values. -/
def Obligations.BitpackUnpacksOneRun : Prop :=
  ∀ (s : State) (bw : BitVec 6),
    (bw.toNat ≤ 32 → s.pend.arg.toNat / 2 * bw.toNat ≤ s.remaining →
      exec (.bitpack bw) s =
        .next (s.committed (s.pend.arg.toNat / 2 * bw.toNat) 0
          ((List.range (8 * (s.pend.arg.toNat / 2))).map fun v =>
            BitVec.ofNat 64
              (unpack (memRead s.buf s.off.toNat (s.pend.arg.toNat / 2 * bw.toNat)) bw.toNat v)))) ∧
    (bw.toNat ≤ 32 → s.remaining < s.pend.arg.toNat / 2 * bw.toNat →
      exec (.bitpack bw) s = .next (s.rolledBack 1)) ∧
    (32 < bw.toNat → exec (.bitpack bw) s = .next (s.rolledBack 3))

/-- R109: at width 0 a bit-packed run of any header emits its count of zero values and consumes no byte, in
every cursor; so BITPACK does, in every state. -/
def Obligations.BitpackWidthZeroEmitsZeros : Prop :=
  (∀ (m : Memory) (c : Cursor) (h : Word),
    bitPackRun m c h 0 = .ok (List.replicate (8 * (h.toNat / 2)) 0, c)) ∧
  ∀ s : State,
    exec (.bitpack 0) s =
      .next (s.committed 0 0 (List.replicate (8 * (s.pend.arg.toNat / 2)) 0))

/-- R113 to R117, RLE: `IllegalParameter` for bw > 32; `TruncatedInput` when the ceil(bw/8) value bytes
are missing, a zero count included; otherwise it completes with arg >> 1 copies of the whole
little-endian value, which is not reduced to bw bits. -/
def Obligations.RleRepeatsTheWholeValue : Prop :=
  ∀ (s : State) (bw : BitVec 6),
    (bw.toNat ≤ 32 → (bw.toNat + 7) / 8 ≤ s.remaining →
      exec (.rle bw) s =
        .next (s.committed ((bw.toNat + 7) / 8) 0
          (List.replicate (s.pend.arg.toNat / 2)
            (BitVec.ofNat 64 (le (memRead s.buf s.off.toNat ((bw.toNat + 7) / 8))))))) ∧
    (bw.toNat ≤ 32 → s.remaining < (bw.toNat + 7) / 8 →
      exec (.rle bw) s = .next (s.rolledBack 1)) ∧
    (32 < bw.toNat → exec (.rle bw) s = .next (s.rolledBack 3))

/-! ## The hybrid stream -/

/-- R118 to R121, R127, HYB.L: a payload of n = arg bytes that is runs back to back completes with the
values of all of them, RESULT = n and n bytes consumed; a payload longer than what remains, and one that
is not runs ending exactly at its end, raise `TruncatedInput`; bw > 32 raises `IllegalParameter`. -/
def Obligations.HybLDecodesThePayload : Prop :=
  ∀ (s : State) (bw : BitVec 6),
    (∀ vals, bw.toNat ≤ 32 → s.pend.arg.toNat ≤ s.remaining →
      StreamOf s.buf s.draws bw.toNat s.mainCursor.off (s.mainCursor.off + s.pend.arg.toNat) vals →
      exec (.hybL bw) s = .next (s.committed s.pend.arg.toNat s.pend.arg vals)) ∧
    (bw.toNat ≤ 32 → s.remaining < s.pend.arg.toNat →
      exec (.hybL bw) s = .next (s.rolledBack 1)) ∧
    (bw.toNat ≤ 32 → s.pend.arg.toNat ≤ s.remaining →
      (¬ ∃ vals, StreamOf s.buf s.draws bw.toNat s.mainCursor.off
        (s.mainCursor.off + s.pend.arg.toNat) vals) →
      exec (.hybL bw) s = .next (s.rolledBack 1)) ∧
    (32 < bw.toNat → exec (.hybL bw) s = .next (s.rolledBack 3))

/-- R118 to R121, R126, HYB.P: as HYB.L, with n the 4-byte little-endian prefix and 4 + n bytes consumed.
A failure consumes nothing, the prefix included. -/
def Obligations.HybPDecodesThePayload : Prop :=
  ∀ (s : State) (bw : BitVec 6) (n : Word),
    n.toNat = le (memRead s.buf s.off.toNat 4) →
    (∀ vals, bw.toNat ≤ 32 → 4 + n.toNat ≤ s.remaining →
      StreamOf s.buf s.draws bw.toNat (s.off.toNat + 4) (s.off.toNat + 4 + n.toNat) vals →
      exec (.hybP bw) s = .next (s.committed (4 + n.toNat) n vals)) ∧
    (bw.toNat ≤ 32 → s.remaining < 4 → exec (.hybP bw) s = .next (s.rolledBack 1)) ∧
    (bw.toNat ≤ 32 → s.remaining < 4 + n.toNat → exec (.hybP bw) s = .next (s.rolledBack 1)) ∧
    (bw.toNat ≤ 32 → 4 + n.toNat ≤ s.remaining →
      (¬ ∃ vals, StreamOf s.buf s.draws bw.toNat (s.off.toNat + 4) (s.off.toNat + 4 + n.toNat) vals) →
      exec (.hybP bw) s = .next (s.rolledBack 1)) ∧
    (32 < bw.toNat → exec (.hybP bw) s = .next (s.rolledBack 3))

/-- R81, R87, R121, R125: whatever runs a writer lays back to back into a payload, HYB.L over those bytes
completes with the concatenation of the runs' values in encounter order. -/
def Obligations.WrittenRunsDecodeInOrder : Prop :=
  ∀ (s : State) (bw : BitVec 6) (runs : List Run),
    bw.toNat ≤ 32 → (∀ r ∈ runs, r.fits bw.toNat) →
    s.pend.arg.toNat = (payloadBytes runs).length →
    (payloadBytes runs).length ≤ s.remaining →
    memRead s.buf s.off.toNat (payloadBytes runs).length = payloadBytes runs →
    exec (.hybL bw) s =
      .next (s.committed (payloadBytes runs).length s.pend.arg (payloadValues bw.toNat runs))

/-- R121, R122: a round of the loop is a header and then the run instruction it selects. From a state in
the middle of a payload, with header h read at the sub-cursor, executing `decodeHeader h` and going on
gives what the loop gives. -/
def Obligations.LoopRoundIsTheRunInstruction : Prop :=
  ∀ (s t : State) (h : Word) (sub : Cursor) (fuel : Nat),
    s.pend.bw.toNat ≤ 32 → curRem s.stream.sub ≠ 0 →
    varintRead s.buf s.draws s.stream.sub = .ok (h, sub) →
    exec (decodeHeader h) { s with stream := { sub := sub, vals := s.stream.vals } } = .next t →
    (t.err = s.err ∧ t.pend = s.pend ∧
      hybridLoop s.buf s.draws s.pend.bw.toNat (fuel + 1) s.stream =
        hybridLoop t.buf t.draws t.pend.bw.toNat fuel t.stream) ∨
    (t = State.rolledBack s 1 ∧
      hybridLoop s.buf s.draws s.pend.bw.toNat (fuel + 1) s.stream = .error .truncatedInput)

/-- R123: every round of the loop consumes at least one byte and never passes the sub-cursor's limit, so the
loop runs at most as often as the payload has bytes: with more rounds allowed the result is the same, and it
ends with the sub-cursor at its limit exactly, or on `TruncatedInput`. -/
def Obligations.LoopNeedsNoMoreRoundsThanBytes : Prop :=
  ∀ (m : Memory) (epoch bw fuel : Nat) (r : StreamRegs),
    r.sub.off ≤ r.sub.lim → curRem r.sub ≤ fuel →
    (∀ r', hybridRound m epoch bw r = .ok r' →
      r.sub.off < r'.sub.off ∧ r'.sub.off ≤ r.sub.lim ∧ r'.sub.lim = r.sub.lim) ∧
    hybridLoop m epoch bw fuel r = hybridLoop m epoch bw (curRem r.sub) r ∧
    (hybridLoop m epoch bw fuel r = .error .truncatedInput ∨
      ∃ r', hybridLoop m epoch bw fuel r = .ok r' ∧ r'.sub.off = r.sub.lim ∧
        r'.sub.lim = r.sub.lim)

/-- R122, R114, RUN_RLE: with its value bytes in the sub-cursor the run completes: it appends count copies
of the value, moves the sub-cursor past the bytes, and changes nothing else; without them the whole
command rolls back (R124). -/
def Obligations.RunRleAppendsItsValues : Prop :=
  ∀ (s : State) (count : BitVec 31),
    s.pend.bw.toNat ≤ 32 →
    ((s.pend.bw.toNat + 7) / 8 ≤ s.stream.sub.lim - s.stream.sub.off →
      exec (.runRle count) s =
        .next { s with
          stream := {
            sub := { off := s.stream.sub.off + (s.pend.bw.toNat + 7) / 8, lim := s.stream.sub.lim }
            vals := s.stream.vals ++
              List.replicate count.toNat
                (BitVec.ofNat 64
                  (le (memRead s.buf s.stream.sub.off ((s.pend.bw.toNat + 7) / 8)))) } }) ∧
    (s.stream.sub.lim - s.stream.sub.off < (s.pend.bw.toNat + 7) / 8 →
      exec (.runRle count) s = .next (s.rolledBack 1))

/-- R122, R110, RUN_BP: likewise for a bit-packed run of 8·numGroups values. -/
def Obligations.RunBpAppendsItsValues : Prop :=
  ∀ (s : State) (g : BitVec 31),
    s.pend.bw.toNat ≤ 32 →
    (g.toNat * s.pend.bw.toNat ≤ s.stream.sub.lim - s.stream.sub.off →
      exec (.runBp g) s =
        .next { s with
          stream := {
            sub := { off := s.stream.sub.off + g.toNat * s.pend.bw.toNat, lim := s.stream.sub.lim }
            vals := s.stream.vals ++
              (List.range (8 * g.toNat)).map fun v =>
                BitVec.ofNat 64
                  (unpack (memRead s.buf s.stream.sub.off (g.toNat * s.pend.bw.toNat))
                    s.pend.bw.toNat v) } }) ∧
    (s.stream.sub.lim - s.stream.sub.off < g.toNat * s.pend.bw.toNat →
      exec (.runBp g) s = .next (s.rolledBack 1))

/-! ## Errors, commit and rollback -/

/-- R77, R132: an otherwise legal BITPACK, RLE, HYB.P or HYB.L word with BW above 32 raises
`IllegalParameter`, code 3, when the unit executes it, whatever BUF holds: before any read, so before
`TruncatedInput`. -/
def Obligations.WidthAbove32RaisesIllegalParameter : Prop :=
  ∀ (s : State) (m : Memory) (i : Instr) (bw : BitVec 6),
    s.pend.valid = true →
    decodeFields s.pend.op s.pend.bw s.pend.lm s.pend.rsv = .ok i →
    i.width = some bw → 32 < bw.toNat →
    unitTurn s = .next (s.rolledBack 3) ∧
    unitTurn { s with buf := m } = .next (State.rolledBack { s with buf := m } 3)

/-- R133, R138: every command answers a next state, and it happens wholly or not at all: either the whole
commit, of at most the bytes that remained, or the whole rollback, with code 1 or 3. -/
def Obligations.CommandHappensWhollyOrNotAtAll : Prop :=
  ∀ (i : Instr) (s : State), i.isCommand = true →
    (∃ k result values, k ≤ s.remaining ∧ exec i s = .next (s.committed k result values)) ∨
    exec i s = .next (s.rolledBack 1) ∨
    (exec i s = .next (s.rolledBack 3) ∧ ∃ bw, i.width = some bw ∧ 32 < bw.toNat)

/-- R22, R27, R30, R50, R136, R137, R141: the frame of all eight commands. CMD, ARG, LEN, WOB, the parameters,
every byte of BUF and the latch but for its valid bit are unchanged; OUT keeps what it held and only grows at
its tail, by OUTCNT values. The commands may write OFF, RESULT, CONSUMED, OUTCNT and ERR, and no other
register. The turns of the script are the model's own (log 1). -/
def Obligations.CommandFrame : Prop :=
  ∀ (i : Instr) (s t : State), i.isCommand = true → exec i s = .next t →
    t.cmd = s.cmd ∧ t.arg = s.arg ∧ t.len = s.len ∧ t.wob = s.wob ∧ t.params = s.params ∧
    t.buf = s.buf ∧ (∀ a, Memory.byte t.buf a = Memory.byte s.buf a) ∧
    t.pend = { s.pend with valid := false } ∧ t.stream = StreamRegs.idle ∧
    t.script = s.script ∧ t.replies = s.replies ∧
    ∃ values, t.out = s.out ++ values ∧ t.outcnt = BitVec.ofNat 64 values.length

/-- R122: the frame of the two run instructions when the run fits: only the transient state of the hybrid
command changes; every register, every byte of BUF, PEND and OUT are unchanged. -/
def Obligations.RunFrame : Prop :=
  ∀ (i : Instr) (s t : State), i.isRun = true → exec i s = .next t → t.draws = s.draws →
    t = { s with stream := t.stream } ∧ t.stream.sub.lim = s.stream.sub.lim ∧
    s.stream.sub.off ≤ t.stream.sub.off ∧
    (∀ a, Memory.byte t.buf a = Memory.byte s.buf a) ∧
    ∃ values, t.stream.vals = s.stream.vals ++ values

/-- R34, R71: in every state that meets the invariant the values a command appends number fewer than 2^63,
so OUTCNT is their exact count. -/
def Obligations.OutcntNeverWraps : Prop :=
  ∀ (i : Instr) (s t : State), s.Inv → i.isCommand = true → exec i s = .next t →
    t.out.length = s.out.length + t.outcnt.toNat ∧ t.outcnt.toNat < 2 ^ 63

/-- R24, R29: a successful command advances OFF by exactly CONSUMED, never past LEN when it consumed
anything, so OFF never wraps. -/
def Obligations.OffAdvancesByConsumed : Prop :=
  ∀ (i : Instr) (s t : State), s.Inv → i.isCommand = true → exec i s = .next t → t.err = 0 →
    t.off.toNat = s.off.toNat + t.consumed.toNat ∧
    (t.consumed ≠ 0 → t.off.toNat ≤ t.len.toNat ∧ t.len.toNat ≤ t.params.bufSize) ∧
    (t.consumed = 0 → t.off = s.off)

/-- R50, R58: decoding is a function of the bytes from OFF to LEN, the offsets and the latched operand
alone (and of the step's draws): two states that agree on these give the same outcome and the same
values, whatever else they hold. That the draws are the same is a premise in the model's own naming of them, by
the counter `draws` (log 3): the hardware draws afresh, so this says that nothing but a draw can differ. -/
def Obligations.CommandReadsOnlyItsWindow : Prop :=
  ∀ (i : Instr) (s t s' : State), i.isCommand = true →
    s.off = t.off → s.len = t.len → s.pend.arg = t.pend.arg → s.draws = t.draws →
    (∀ a, s.off.toNat ≤ a → a < s.len.toNat → Memory.byte s.buf a = Memory.byte t.buf a) →
    exec i s = .next s' →
    ∃ t' values, exec i t = .next t' ∧ t'.result = s'.result ∧ t'.consumed = s'.consumed ∧
      t'.outcnt = s'.outcnt ∧ t'.err = s'.err ∧ t'.off = s'.off ∧
      s'.out = s.out ++ values ∧ t'.out = t.out ++ values

/-! ## Steps, the host and the registers -/

/-- R22, R148: a step whose turn is the unit's, and a step with no turn left, is the unit's move. With a
command latched whose word decodes, that is `exec` of the instruction; with one whose word is illegal it is the
rollback with code 2; with nothing latched Exec is not enabled, and no state is lost or changed. The turns of
the script are the model's own (log 1). -/
def Obligations.UnitStepExecutesTheLatchedCommand : Prop :=
  ∀ (s : State) (rest : List Turn),
    step { s with script := .unit :: rest } = unitTurn { s with script := rest } ∧
    step { s with script := [] } = unitTurn { s with script := [] } ∧
    (s.pend.valid = true →
      (∀ i, decodeFields s.pend.op s.pend.bw s.pend.lm s.pend.rsv = .ok i →
        step { s with script := .unit :: rest } = exec i { s with script := rest } ∧
        step { s with script := [] } = exec i { s with script := [] }) ∧
      (∀ e, decodeFields s.pend.op s.pend.bw s.pend.lm s.pend.rsv = .error e →
        step { s with script := .unit :: rest } =
          .next (State.rolledBack { s with script := rest } 2) ∧
        step { s with script := [] } = .next (State.rolledBack { s with script := [] } 2))) ∧
    (s.pend.valid = false →
      step { s with script := .unit :: rest } = .next { s with script := rest } ∧
      step { s with script := [] } = .next { s with script := [] })

/-- R43: a CMD write while BUSY = 0 stores the word, latches its fields with ARG, and makes BUSY 1. The turns
of the script are the model's own (log 1). -/
def Obligations.AcceptedCmdWriteLatches : Prop :=
  ∀ (s : State) (d : Word) (rest : List Turn), s.busy = false →
    ∃ t, step { s with script := .host (.regWrite 0x00 32 d) :: rest } = .next t ∧
      t = { s with
        script := rest
        cmd := d
        pend := {
          valid := true
          op := d.extractLsb' 0 4
          bw := d.extractLsb' 4 6
          lm := d.extractLsb' 10 1
          rsv := d.extractLsb' 11 21
          arg := s.arg } } ∧
      t.busy = true

/-- R42, R44: while BUSY = 1 a write of CMD, ARG, OFF, LEN or a byte of BUF changes nothing but WOB. That a BUF
write at or above BUF_SIZE sets WOB too is the model's reading of R44 (DEDUCED, log 11). The turns of the script
are the model's own (log 1). -/
def Obligations.WritesWhileBusyOnlySetWob : Prop :=
  ∀ (s : State) (rest : List Turn) (a : HostAction), s.busy = true →
    ((∃ d, a = .regWrite 0x00 32 d ∨ a = .regWrite 0x04 32 d ∨ a = .regWrite 0x10 32 d ∨
        a = .regWrite 0x14 32 d) ∨ ∃ x b, a = .bufWrite x b) →
    step { s with script := .host a :: rest } = .next { s with script := rest, wob := true }

/-- R27, R29, R30, R44: while BUSY = 0 a write stores: ARG and OFF unchanged as written, LEN clamped to
BUF_SIZE, a byte of BUF below BUF_SIZE; a BUF write at or above BUF_SIZE is ignored. The turns of the script
are the model's own (log 1). -/
def Obligations.WritesWhileIdleStore : Prop :=
  ∀ (s : State) (rest : List Turn) (d : Word) (x : Nat) (b : Byte), s.busy = false →
    step { s with script := .host (.regWrite 0x04 32 d) :: rest } =
      .next { s with script := rest, arg := d } ∧
    step { s with script := .host (.regWrite 0x10 32 d) :: rest } =
      .next { s with script := rest, off := d } ∧
    step { s with script := .host (.regWrite 0x14 32 d) :: rest } =
      .next { s with script := rest, len := BitVec.ofNat 32 (min d.toNat s.params.bufSize) } ∧
    (x < s.params.bufSize →
      ∃ m, step { s with script := .host (.bufWrite x b) :: rest } =
          .next { s with script := rest, buf := m } ∧
        ∀ y, Memory.byte m y = if y = x then b else Memory.byte s.buf y) ∧
    (s.params.bufSize ≤ x →
      step { s with script := .host (.bufWrite x b) :: rest } = .next { s with script := rest })

/-- R31 to R36: writes of the read-only registers and of the reserved offsets change nothing at any time, WOB
included. The turns of the script are the model's own (log 1). -/
def Obligations.ReadOnlyWritesAreIgnored : Prop :=
  ∀ (s : State) (rest : List Turn) (d : Word) (off : Nat),
    (off = 0x0C ∨ off = 0x18 ∨ off = 0x1C ∨ off = 0x20 ∨ off = 0x24 ∨ off = 0x28 ∨
      (0x2C ≤ off ∧ off ≤ 0xFC ∧ off % 4 = 0)) →
    step { s with script := .host (.regWrite off 32 d) :: rest } = .next { s with script := rest }

/-- R28, R37: the STATUS word bit by bit, what BUSY is, and what a STATUS write does at any time: bit 1 of the
written word clears WOB and every other bit is ignored. The turns of the script are the model's own (log 1).
-/
def Obligations.StatusFieldsAndWrite : Prop :=
  ∀ (s : State) (e : BitVec 4) (rest : List Turn) (d : Word),
    (s.busy = true ↔
      s.pend.valid = true ∨ ∃ depth, s.params.outDepth = some depth ∧ depth < s.out.length) ∧
    (s.statusWord e).toNat =
      s.busy.toNat + 2 * s.wob.toNat + 16 * e.toNat + 256 * (decide (0 < s.out.length)).toNat ∧
    (step { s with script := .host (.regWrite 0x08 32 d) :: rest } =
      .next { s with script := rest, wob := if d.getLsbD 1 then false else s.wob })

/-- R31, R34, R35, R36, R41: what every register of the map reads as while BUSY = 0. A read changes nothing of
the unit. The turns of the script and the list of replies are the model's own (logs 1 and 2). -/
def Obligations.RegisterReadsWhileIdle : Prop :=
  ∀ (s : State) (rest : List Turn) (p : Nat × Word), s.busy = false →
    (p ∈ [(0x00, s.cmd), (0x04, s.arg), (0x08, s.statusWord s.err), (0x0C, s.result), (0x10, s.off),
        (0x14, s.len),
        (0x18, if s.off.toNat ≤ s.len.toNat then BitVec.ofNat 32 (s.len.toNat - s.off.toNat) else 0),
        (0x1C, s.consumed), (0x20, BitVec.ofNat 32 (s.outcnt.toNat % 2 ^ 32)),
        (0x24, BitVec.ofNat 32 (s.outcnt.toNat / 2 ^ 32)), (0x28, BitVec.ofNat 32 s.params.bufSize)] ∨
      (0x2C ≤ p.1 ∧ p.1 ≤ 0xFC ∧ p.1 % 4 = 0 ∧ p.2 = 0)) →
    step { s with script := .host (.regRead p.1 32) :: rest } =
      .next { s with script := rest, replies := s.replies ++ [.reg p.2] }

/-- R41: while BUSY = 1 CMD, ARG, LEN, BUFSZ and the reserved offsets read exactly; RESULT, OFF, REM,
CONSUMED, OUTCNT_LO and OUTCNT_HI read as the free draw of this read; and in STATUS only the ERR field is
drawn. That the drawn ERR is the low four bits of the read's draw, and that the draw counter moves on at every
read in the busy window, of an exact register too, are the model's choices (logs 3 and 11). The turns of the
script and the list of replies are the model's own (logs 1 and 2). -/
def Obligations.RegisterReadsWhileBusy : Prop :=
  ∀ (s : State) (rest : List Turn) (p : Nat × Word), s.busy = true →
    (p ∈ [(0x00, s.cmd), (0x04, s.arg), (0x14, s.len), (0x28, BitVec.ofNat 32 s.params.bufSize),
        (0x08, s.statusWord ((Config.draw s.draws 0).extractLsb' 0 4)),
        (0x0C, Config.draw s.draws 0), (0x10, Config.draw s.draws 0), (0x18, Config.draw s.draws 0),
        (0x1C, Config.draw s.draws 0), (0x20, Config.draw s.draws 0), (0x24, Config.draw s.draws 0)] ∨
      (0x2C ≤ p.1 ∧ p.1 ≤ 0xFC ∧ p.1 % 4 = 0 ∧ p.2 = 0)) →
    step { s with script := .host (.regRead p.1 32) :: rest } =
      .next { s with
        script := rest, replies := s.replies ++ [.reg p.2], draws := s.draws + 1 }

/-- R45: BufRead returns the byte below BUF_SIZE and 0 at or above it, at any time, with no side effect. The
turns of the script and the list of replies are the model's own (logs 1 and 2). -/
def Obligations.BufReadReturnsTheByte : Prop :=
  ∀ (s : State) (rest : List Turn) (a : Nat),
    step { s with script := .host (.bufRead a) :: rest } =
      .next { s with
        script := rest
        replies := s.replies ++
          [.byte (if a < s.params.bufSize then Memory.byte s.buf a else 0)] }

/-- R46: OutPop returns and removes the head of OUT, while BUSY too; with OUT empty the host waits and the
unit moves: a latched command executes with the pop still to come, and with none latched nothing changes. The
turns of the script and the list of replies are the model's own (logs 1 and 2). -/
def Obligations.OutPopTakesTheHeadOrWaits : Prop :=
  ∀ (s : State) (rest : List Turn) (v : Val) (vs : List Val),
    (s.out = v :: vs →
      step { s with script := .host .outPop :: rest } =
        .next { s with script := rest, out := vs, replies := s.replies ++ [.out v] }) ∧
    (s.out = [] → s.pend.valid = true →
      step { s with script := .host .outPop :: rest } =
        execLatched { s with script := .host .outPop :: rest }) ∧
    (s.out = [] → s.pend.valid = false →
      step { s with script := .host .outPop :: rest } =
        .next { s with script := .host .outPop :: rest })

/-- R56, R133: the machine refuses exactly the register accesses outside the interface, and nothing else ever
stops it. Outside are those of another width or at an unaligned offset (R56), and those at an offset of 0x100
or above, which the model reads from the window of R25 (DEDUCED, log 10). The turns of the script are the
model's own (log 1). The turns of the script are the model's own (log 1). -/
def Obligations.OnlyAccessesOutsideTheInterfaceAreRefused : Prop :=
  ∀ (s : State) (r : Refusal),
    step s = .refused r ↔
      r = .registerAccessOutsideInterface ∧
        ∃ off width rest,
          (s.script = .host (.regRead off width) :: rest ∨
            ∃ d, s.script = .host (.regWrite off width d) :: rest) ∧
          ¬ (off % 4 = 0 ∧ width = 32 ∧ off < 256)

/-- R27, R157: the unit reads the latched copy of the operand, never ARG: with any other value in ARG the
command does the same. -/
def Obligations.ArgWrittenLaterDoesNotMatter : Prop :=
  ∀ (i : Instr) (s t : State) (x : Word), exec i s = .next t →
    exec i { s with arg := x } = .next { t with arg := x }

/-! ## Reset, progress and the invariant -/

/-- R150, R151, R152: Reset at any time discards a latched command and sets every register to its reset value;
BUF keeps its bytes. The other fields of PEND are unspecified then and this says nothing of them. The turns of
the script are the model's own (log 1). -/
def Obligations.ResetSetsEveryRegister : Prop :=
  ∀ (s : State) (rest : List Turn), ∃ t, step { s with script := .reset :: rest } = .next t ∧
    t.cmd = 0 ∧ t.arg = 0 ∧ t.statusWord t.err = 0 ∧ t.wob = false ∧ t.err = 0 ∧ t.result = 0 ∧
    t.off = 0 ∧ t.len = 0 ∧ t.rem = 0 ∧ t.consumed = 0 ∧ t.outcnt = 0 ∧ t.pend.valid = false ∧
    t.out = [] ∧ t.params = s.params ∧ (∀ a, Memory.byte t.buf a = Memory.byte s.buf a) ∧
    t.stream = StreamRegs.idle

/-- R151, R152: the state after power-up. -/
def Obligations.PowerUpState : Prop :=
  State.reset.cmd = 0 ∧ State.reset.arg = 0 ∧ State.reset.statusWord State.reset.err = 0 ∧
  State.reset.result = 0 ∧ State.reset.off = 0 ∧ State.reset.len = 0 ∧ State.reset.rem = 0 ∧
  State.reset.consumed = 0 ∧ State.reset.outcnt = 0 ∧ State.reset.pend.valid = false ∧
  State.reset.out = [] ∧ ∀ a, Memory.byte State.reset.buf a = Config.powerUpByte a

/-- R153: with LEN = 0, as after reset, a command that reads at least one byte raises `TruncatedInput`,
and RDN 0, BITPACK and RLE at width 0 and HYB.L 0 complete, consuming nothing. -/
def Obligations.EmptyBufferCommands : Prop :=
  ∀ (s : State) (bw : BitVec 6), s.len = 0 → bw.toNat ≤ 32 →
    exec .rdbyte s = .next (s.rolledBack 1) ∧
    exec .rdu32 s = .next (s.rolledBack 1) ∧
    exec .varint s = .next (s.rolledBack 1) ∧
    exec (.hybP bw) s = .next (s.rolledBack 1) ∧
    (bw ≠ 0 → exec (.rle bw) s = .next (s.rolledBack 1)) ∧
    (bw ≠ 0 → 2 ≤ s.pend.arg.toNat → exec (.bitpack bw) s = .next (s.rolledBack 1)) ∧
    (s.pend.arg ≠ 0 →
      exec .rdn s = .next (s.rolledBack 1) ∧ exec (.hybL bw) s = .next (s.rolledBack 1)) ∧
    (s.pend.arg = 0 →
      exec .rdn s = .next (s.committed 0 0 []) ∧ exec (.hybL bw) s = .next (s.committed 0 0 [])) ∧
    exec (.bitpack 0) s =
      .next (s.committed 0 0 (List.replicate (8 * (s.pend.arg.toNat / 2)) 0)) ∧
    exec (.rle 0) s = .next (s.committed 0 0 (List.replicate (s.pend.arg.toNat / 2) 0))

/-- R38, R151: while `PEND.valid = 0` the other fields of the latch are never read: with any other values in
them the step does the same, and after it they are still what they were, unless the step latched or reset
them. -/
def Obligations.StaleLatchFieldsAreNeverRead : Prop :=
  ∀ (s t : State) (p : Pend), s.pend.valid = false → p.valid = false → step s = .next t →
    ∃ t', step { s with pend := p } = .next t' ∧ t = { t' with pend := t.pend } ∧
      t'.pend.valid = t.pend.valid ∧ (t'.pend = t.pend ∨ (t'.pend = p ∧ t.pend = s.pend))

/-- R44, R62, R66: while a command is latched its input stands still. A step after which the command is still
latched changes none of BUF, OFF, LEN, CMD, ARG and the latch; and no step at all that starts with a command
latched changes BUF, or LEN except by Reset. The turns of the script are the model's own (log 1). -/
def Obligations.InputStandsWhileLatched : Prop :=
  ∀ s t : State, s.pend.valid = true → step s = .next t →
    t.buf = s.buf ∧
    (t.len = s.len ∨ ∃ rest, s.script = .reset :: rest) ∧
    (t.pend.valid = true →
      t.off = s.off ∧ t.len = s.len ∧ t.cmd = s.cmd ∧ t.arg = s.arg ∧ t.pend = s.pend)

/-- R28, R37, R42, R44, R141: WOB rises only by a host write of CMD, ARG, OFF, LEN or BUF while BUSY = 1, and
falls only by a STATUS write with bit 1 set or by Reset. No Exec changes it. The turns of the script are the
model's own (log 1). The turns of the script are the model's own (log 1). -/
def Obligations.WobChangesOnlyByItsRules : Prop :=
  ∀ s t : State, step s = .next t → t.wob ≠ s.wob →
    (t.wob = true ∧ s.busy = true ∧
      ∃ rest, (∃ d, s.script = .host (.regWrite 0x00 32 d) :: rest ∨
          s.script = .host (.regWrite 0x04 32 d) :: rest ∨
          s.script = .host (.regWrite 0x10 32 d) :: rest ∨
          s.script = .host (.regWrite 0x14 32 d) :: rest) ∨
        ∃ a b, s.script = .host (.bufWrite a b) :: rest) ∨
    (t.wob = false ∧
      ∃ rest, (∃ d : Word, d.getLsbD 1 = true ∧ s.script = .host (.regWrite 0x08 32 d) :: rest) ∨
        s.script = .reset :: rest)

/-- R13, R24, R29: OFF moves backwards only by a host write of OFF while BUSY = 0, or by Reset. The unit never
seeks backward and never wraps OFF. The turns of the script are the model's own (log 1). -/
def Obligations.OffMovesBackOnlyByTheHost : Prop :=
  ∀ s t : State, s.Inv → step s = .next t →
    s.off.toNat ≤ t.off.toNat ∨
    (∃ rest, s.script = .reset :: rest) ∨
    (s.busy = false ∧ ∃ d rest, s.script = .host (.regWrite 0x10 32 d) :: rest ∧ t.off = d)

/-- R40, R46, R160: OUT is a queue: a step appends values at its tail, or is the pop of its head, or is Reset,
which empties it. The turns of the script are the model's own (log 1). -/
def Obligations.OutIsAQueue : Prop :=
  ∀ s t : State, step s = .next t →
    (∃ values, t.out = s.out ++ values) ∨
    (∃ v rest, s.script = .host .outPop :: rest ∧ s.out = v :: t.out) ∨
    (t.out = [] ∧ ∃ rest, s.script = .reset :: rest)

/-- R159: with a finite OUT_DEPTH and OUT above it, BUSY stays 1 for as long as the host does not pop OUT (and
does not reset); and a host that then WAITs before it pops never leaves that WAIT, whatever its later turns are:
the wait is a hang. The turns of the script are the model's own (log 1). -/
def Obligations.BackPressureHoldsUntilPopped : Prop :=
  ∀ (s : State) (depth : Nat),
    s.params.outDepth = some depth → depth < s.out.length →
    (accessesInside s.script → neverDrains s.script →
      ∀ k, ∃ t, Host.Core.run Sys2Proof.core k s = .next t ∧ t.busy = true ∧
        s.out.length ≤ t.out.length) ∧
    (∀ ahead rest, s.script = .wait ahead :: rest →
      ∀ k, ∃ t, Host.Core.run Sys2Proof.core k s = .next t ∧ t.busy = true ∧
        (t.script = .unit :: .wait 0 :: rest ∨ ∃ j, t.script = .wait j :: rest))

/-- R62, R161: a latched command is executed, or discarded by Reset, after at most as many steps as the script
has moves, whatever the host does within its interface: the state before that step still holds the same latch
and the same input, and the step is the unit's Exec of it or is Reset. The turns of the script and their count
are the model's own (log 1). The turns of the script are the model's own (log 1). -/
def Obligations.LatchedCommandIsExecuted : Prop :=
  ∀ s : State, s.pend.valid = true → accessesInside s.script →
    ∃ k u t, k ≤ scriptMoves s.script ∧ Host.Core.run Sys2Proof.core k s = .next u ∧
      u.pend = s.pend ∧ u.buf = s.buf ∧ u.off = s.off ∧ u.len = s.len ∧ u.params = s.params ∧
      step u = .next t ∧ t.pend.valid = false ∧
      (execLatched { u with script := t.script } = .next t ∨
        ∃ rest, u.script = .reset :: rest ∧ t = State.resetUnit { u with script := rest })

/-- R129, R30, R40, R42, R43, R44, R49, R71, R137: every step keeps the invariant. -/
def Obligations.StepKeepsInvariant : Prop :=
  ∀ s t : State, s.Inv → step s = .next t → t.Inv

/-- The invariant holds in the state after reset. -/
def Obligations.ResetMeetsInvariant : Prop := State.reset.Inv

/-! ## The assembler -/

/-- R88: an assembled command line writes the word of its command, whose width it carries, after ARG where
it has an operand; it is refused exactly when bw > 32 or the operand does not fit 32 bits. -/
def Obligations.AssembledLinesWriteTheirWords : Prop :=
  ∀ n bw : Nat,
    (n < 2 ^ 32 → bw ≤ 32 →
      assemble (.rdn n) =
        some [.host (.regWrite 0x04 32 (BitVec.ofNat 32 n)), .host (.regWrite 0x00 32 0x2)] ∧
      assemble (.bitpack n bw) =
        some [.host (.regWrite 0x04 32 (BitVec.ofNat 32 n)),
          .host (.regWrite 0x00 32 (BitVec.ofNat 32 (0x5 + 16 * bw)))] ∧
      assemble (.rle n bw) =
        some [.host (.regWrite 0x04 32 (BitVec.ofNat 32 n)),
          .host (.regWrite 0x00 32 (BitVec.ofNat 32 (0x6 + 16 * bw)))] ∧
      assemble (.hybL n bw) =
        some [.host (.regWrite 0x04 32 (BitVec.ofNat 32 n)),
          .host (.regWrite 0x00 32 (BitVec.ofNat 32 (0x407 + 16 * bw)))] ∧
      assemble (.hybP bw) = some [.host (.regWrite 0x00 32 (BitVec.ofNat 32 (0x7 + 16 * bw)))]) ∧
    assemble .rdbyte = some [.host (.regWrite 0x00 32 0x1)] ∧
    assemble .rdu32 = some [.host (.regWrite 0x00 32 0x3)] ∧
    assemble .varint = some [.host (.regWrite 0x00 32 0x4)] ∧
    (assemble (.rdn n) = none ↔ 2 ^ 32 ≤ n) ∧
    (assemble (.hybP bw) = none ↔ 32 < bw) ∧
    (assemble (.bitpack n bw) = none ↔ 32 < bw ∨ 2 ^ 32 ≤ n) ∧
    (assemble (.rle n bw) = none ↔ 32 < bw ∨ 2 ^ 32 ≤ n) ∧
    (assemble (.hybL n bw) = none ↔ 32 < bw ∨ 2 ^ 32 ≤ n)

/-- R89, R90: the directives are the host actions they stand for (`.buf` writes byte j at a + j; WAIT is the
polling turn of `WaitPollsUntilBusyReadsZero`, whose number only places the unit's move, log 1), and the
pseudo-instructions are their expansions. That `.buf` is assembled at any address is the model's choice
(log 14). -/
def Obligations.DirectivesAndPseudoInstructionsExpand : Prop :=
  (∀ (a : Nat) (bytes : List Byte),
    assemble (.dotBuf a bytes) =
      some (bytes.mapIdx fun j b => .host (.bufWrite (a + j) b))) ∧
  (∀ n, n < 2 ^ 32 →
    assemble (.dotLen n) = some [.host (.regWrite 0x14 32 (BitVec.ofNat 32 n))] ∧
    assemble (.dotOff n) = some [.host (.regWrite 0x10 32 (BitVec.ofNat 32 n))] ∧
    assemble (.skip n) =
      some ([.host (.regWrite 0x04 32 (BitVec.ofNat 32 n)), .host (.regWrite 0x00 32 0x2)] ++
        List.replicate n (.host .outPop))) ∧
  (∀ n, assemble (.seek n) = assemble (.dotOff n)) ∧
  (∀ k, assemble (.wait k) = some [.wait k]) ∧
  assemble .pop = some [.host .outPop] ∧
  assemble .clrwob = some [.host (.regWrite 0x08 32 0x2)] ∧
  (∀ c bw, assemble (.runRle c bw) = assemble (.rle (c * 2) bw)) ∧
  (∀ g bw, assemble (.runBp g bw) = assemble (.bitpack (g * 2 + 1) bw))

/-- R18, R90: `bitWidthOf(m)` is the least w with m < 2^w, which is the ceiling of log2(m + 1), and 0 for
m = 0; `LEVELS m` is `HYB.P bitWidthOf(m)`, refused exactly when m ≥ 2^32. -/
def Obligations.LevelsUsesTheLeastWidth : Prop :=
  bitWidthOf 0 = 0 ∧
  ∀ m : Nat,
    (∀ w, bitWidthOf m ≤ w ↔ m < 2 ^ w) ∧
    bitWidthOf m = Nat.clog 2 (m + 1) ∧
    assemble (.levels m) = assemble (.hybP (bitWidthOf m)) ∧
    (assemble (.levels m) = none ↔ 2 ^ 32 ≤ m)

/-- R89 WAIT: one poll of a WAIT is a read of STATUS, whose bit 0 is BUSY. Where it reads BUSY = 0 the WAIT is
over; where it reads BUSY = 1 the WAIT stays, and the unit moves among the polls. How the unit's move falls
among them, the turns of the script, the list of replies and the draw of a busy read's ERR are the model's own
(logs 1, 2, 3 and 11). The turns of the script and the list of replies are the model's own (logs 1 and 2). -/
def Obligations.WaitPollsUntilBusyReadsZero : Prop :=
  ∀ (s : State) (rest : List Turn) (ahead : Nat),
    (∀ e, (s.statusWord e).getLsbD 0 = s.busy) ∧
    (s.busy = false →
      step { s with script := .wait ahead :: rest } =
        .next { s with script := rest, replies := s.replies ++ [.reg (s.statusWord s.err)] }) ∧
    (s.busy = true →
      step { s with script := .wait 0 :: rest } =
        .next { s with
          script := .unit :: .wait 0 :: rest
          replies := s.replies ++ [.reg (s.statusWord ((Config.draw s.draws 0).extractLsb' 0 4))]
          draws := s.draws + 1 } ∧
      step { s with script := .wait (ahead + 1) :: rest } =
        .next { s with
          script := .wait ahead :: rest
          replies := s.replies ++ [.reg (s.statusWord ((Config.draw s.draws 0).extractLsb' 0 4))]
          draws := s.draws + 1 })

/-- R89, R159, R161: a WAIT behind an issued command sees that command executed. After at most ahead + 3 steps
the latch is clear and the state is the one Exec left, but for the script, the replies and the draw counter; and
either the WAIT is over, its last read having shown BUSY = 0, or OUT stands above OUT_DEPTH and the WAIT goes on.
The step count, the turns, the replies and the draw counter are the model's own (logs 1, 2 and 3). -/
def Obligations.WaitEndsUnlessBackPressured : Prop :=
  ∀ (s : State) (rest : List Turn) (ahead : Nat), s.pend.valid = true →
    ∃ k t, k ≤ ahead + 3 ∧
      Host.Core.run Sys2Proof.core k { s with script := .wait ahead :: rest } = .next t ∧
      t.pend.valid = false ∧
      (∃ replies draws e,
        execLatched { s with script := .wait 0 :: rest, replies := replies, draws := draws } = .next e ∧
        t = { e with script := t.script, replies := t.replies, draws := t.draws }) ∧
      ((t.script = rest ∧ t.busy = false ∧
          ∃ v, t.replies.getLast? = some (.reg v) ∧ v.getLsbD 0 = false) ∨
        (t.script = .unit :: .wait 0 :: rest ∧
          ∃ depth, t.params.outDepth = some depth ∧ depth < t.out.length))
end

