-- ==== Sys2Proof/Laws/Memory.lean ====
section
/-! SUPPORT. The laws of BUF: a read after a write, and the canonical form that every write keeps. -/

namespace Sys2Proof.Machine

theorem Memory.lookup_write (m : Memory) (a : Nat) (b : Byte) (x : Nat) :
    Memory.lookup (Memory.write m a b) x = if x = a then some b else Memory.lookup m x := by
  induction m with
  | nil => simp [Memory.write, Memory.lookup, eq_comm]
  | cons c m ih =>
    obtain ⟨y, d⟩ := c
    unfold Memory.write
    split
    · simp [Memory.lookup, eq_comm]
    · split
      · rename_i h; subst h
        by_cases hx : x = a
        · simp [Memory.lookup, hx]
        · simp [Memory.lookup, hx, Ne.symm hx]
      · by_cases hy : y = x
        · subst hy; simp [Memory.lookup]; omega
        · simp [Memory.lookup, ih, hy]

/-- A byte written is the byte read, and every other byte stays (R44, R45). -/
theorem Memory.byte_write (m : Memory) (a : Nat) (b : Byte) (x : Nat) :
    Memory.byte (Memory.write m a b) x = if x = a then b else Memory.byte m x := by
  unfold Memory.byte
  rw [Memory.lookup_write]
  split <;> simp

/-- Every cell after a write is the written one or one that stood there. -/
theorem Memory.mem_write {m : Memory} {a : Nat} {b : Byte} {c : Host.Cell}
    (h : c ∈ Memory.write m a b) : c = (a, b) ∨ c ∈ m := by
  induction m with
  | nil => simpa [Memory.write] using h
  | cons d m ih =>
    obtain ⟨y, e⟩ := d
    unfold Memory.write at h
    split at h
    · simpa using h
    · split at h
      · rcases List.mem_cons.1 h with h | h
        · exact .inl h
        · exact .inr (List.mem_cons_of_mem _ h)
      · rcases List.mem_cons.1 h with h | h
        · exact .inr (h ▸ List.mem_cons_self)
        · rcases ih h with h | h
          · exact .inl h
          · exact .inr (List.mem_cons_of_mem _ h)

/-- A write keeps the canonical form. -/
theorem Memory.write_wf {m : Memory} (h : Memory.wf m) (a : Nat) (b : Byte) :
    Memory.wf (Memory.write m a b) := by
  induction m with
  | nil => simp [Memory.write, Memory.wf]
  | cons d m ih =>
    obtain ⟨y, e⟩ := d
    have ⟨hd, hm⟩ := List.pairwise_cons.1 h
    unfold Memory.write
    split
    · rename_i hlt
      refine List.pairwise_cons.2 ⟨fun c hc => ?_, h⟩
      rcases List.mem_cons.1 hc with rfl | hc
      · exact hlt
      · exact Nat.lt_trans hlt (hd c hc)
    · split
      · rename_i _ heq; subst heq
        exact List.pairwise_cons.2 ⟨hd, hm⟩
      · refine List.pairwise_cons.2 ⟨fun c hc => ?_, ih hm⟩
        rcases Memory.mem_write hc with rfl | hc
        · simp only; omega
        · exact hd c hc

theorem Memory.writeAll_wf {m : Memory} (h : Memory.wf m) (a : Nat) (bs : List Byte) :
    Memory.wf (Memory.writeAll m a bs) := by
  induction bs generalizing m a with
  | nil => exact h
  | cons b bs ih => exact ih (Memory.write_wf h a b) (a + 1)

/-- The memory of the state after reset is in canonical form. -/
theorem State.reset_buf_wf : Memory.wf State.reset.buf := List.Pairwise.nil

/-- Placing a table word keeps the canonical form. -/
theorem State.placeTableWord_buf_wf {s : State} (h : Memory.wf s.buf) (nbits w : Nat) :
    Memory.wf (s.placeTableWord nbits w).buf := by
  unfold State.placeTableWord
  simp only
  split
  · exact h
  · exact Memory.writeAll_wf h 0 _

@[simp] theorem memRead_length (m : Memory) (a n : Nat) : (memRead m a n).length = n := by
  simp [memRead]

@[simp] theorem memRead_zero (m : Memory) (a : Nat) : memRead m a 0 = [] := rfl

theorem memRead_getElem (m : Memory) (a n j : Nat) (h : j < (memRead m a n).length) :
    (memRead m a n)[j] = Memory.byte m (a + j) := by
  simp [memRead]

/-- A read depends on the bytes it covers alone. -/
theorem memRead_congr {m m' : Memory} {a n : Nat}
    (h : ∀ x, a ≤ x → x < a + n → Memory.byte m x = Memory.byte m' x) :
    memRead m a n = memRead m' a n := by
  unfold memRead
  refine List.map_congr_left fun j hj => h _ (by omega) ?_
  have := List.mem_range.1 hj
  omega

/-- A longer read starts with the shorter one. -/
theorem memRead_add (m : Memory) (a n k : Nat) :
    memRead m a (n + k) = memRead m a n ++ memRead m (a + n) k := by
  simp [memRead, List.range_add, Nat.add_assoc]

theorem memRead_succ (m : Memory) (a n : Nat) :
    memRead m a (n + 1) = Memory.byte m a :: memRead m (a + 1) n := by
  rw [Nat.add_comm, memRead_add]
  rfl

end Sys2Proof.Machine
end

