-- ==== Sys2Proof/Laws/Cursor.lean ====
section
/-! SUPPORT. What the cursor primitives do (40_cursor.md R91 to R95), the main cursor (10_state.md R29),
little-endian assembly (R9), and that each of them depends on the bytes it covers alone (R50). -/

namespace Sys2Proof.Machine

/-! ### The main cursor -/

@[simp] theorem State.mainCursor_lim (s : State) : s.mainCursor.lim = s.len.toNat := by
  unfold State.mainCursor; split <;> rfl

theorem State.mainCursor_off (s : State) : s.mainCursor.off = min s.off.toNat s.len.toNat := by
  unfold State.mainCursor; split <;> simp <;> omega

theorem State.mainCursor_off_le (s : State) : s.mainCursor.off ≤ s.mainCursor.lim := by
  rw [State.mainCursor_off, State.mainCursor_lim]; omega

/-- R91: for the main cursor CurRem is LEN − OFF, or 0. -/
theorem State.curRem_mainCursor (s : State) : curRem s.mainCursor = s.len.toNat - s.off.toNat := by
  unfold curRem; rw [State.mainCursor_off, State.mainCursor_lim]; omega

/-- With a byte left the main cursor stands at OFF. -/
theorem State.mainCursor_off_of_rem {s : State} (h : 0 < curRem s.mainCursor) :
    s.mainCursor.off = s.off.toNat := by
  rw [State.curRem_mainCursor] at h
  rw [State.mainCursor_off]; omega

/-- What a command reads of the main cursor's bytes it reads at OFF, or it reads nothing. -/
theorem State.memRead_mainCursor (s : State) {n : Nat} (h : n ≤ curRem s.mainCursor) :
    memRead s.buf s.mainCursor.off n = memRead s.buf s.off.toNat n := by
  rcases Nat.eq_zero_or_pos n with rfl | hn
  · rfl
  · rw [State.mainCursor_off_of_rem (by omega)]

/-! ### The primitives -/

theorem curReadByte_short {m : Memory} {c : Cursor} (h : curRem c = 0) :
    curReadByte m c = .error .truncatedInput := by
  simp [curReadByte, h]

theorem curReadByte_fits {m : Memory} {c : Cursor} (h : 0 < curRem c) :
    curReadByte m c = .ok (Memory.byte m c.off, { off := c.off + 1, lim := c.lim }) := by
  unfold curReadByte; rw [if_neg (by omega)]

theorem curReadN_short {m : Memory} {c : Cursor} {n : Nat} (h : curRem c < n) :
    curReadN m c n = .error .truncatedInput := by
  unfold curReadN; rw [if_pos h]

theorem curReadN_fits {m : Memory} {c : Cursor} {n : Nat} (h : n ≤ curRem c) :
    curReadN m c n = .ok (memRead m c.off n, { off := c.off + n, lim := c.lim }) := by
  unfold curReadN; rw [if_neg (by omega)]

theorem curReadLE32_short {m : Memory} {c : Cursor} (h : curRem c < 4) :
    curReadLE32 m c = .error .truncatedInput := by
  unfold curReadLE32; rw [curReadN_short (by simpa [Config.prefixBytes] using h)]

theorem curReadLE32_fits {m : Memory} {c : Cursor} (h : 4 ≤ curRem c) :
    curReadLE32 m c =
      .ok (BitVec.ofNat 32 (le (memRead m c.off 4)), { off := c.off + 4, lim := c.lim }) := by
  unfold curReadLE32; rw [curReadN_fits (by simpa [Config.prefixBytes] using h)]; rfl

theorem curSlice_short {c : Cursor} {n : Nat} (h : curRem c < n) :
    curSlice c n = .error .truncatedInput := by
  unfold curSlice; rw [if_pos h]

theorem curSlice_fits {c : Cursor} {n : Nat} (h : n ≤ curRem c) :
    curSlice c n = .ok ({ off := c.off, lim := c.off + n }, { off := c.off + n, lim := c.lim }) := by
  unfold curSlice; rw [if_neg (by omega)]

/-! ### The width check (R77) -/

theorem withLegalWidth_ok {α : Type} {bw : BitVec 6} (h : bw.toNat ≤ 32)
    (k : Nat → Except CmdError α) : withLegalWidth bw k = k bw.toNat := by
  unfold withLegalWidth; rw [if_neg (by simpa [Config.bwMax] using h)]

theorem withLegalWidth_error {α : Type} {bw : BitVec 6} (h : 32 < bw.toNat)
    (k : Nat → Except CmdError α) : withLegalWidth bw k = .error .illegalParameter := by
  unfold withLegalWidth; rw [if_pos (by simpa [Config.bwMax] using h)]

/-! ### Little-endian assembly -/

@[simp] theorem le_nil : le [] = 0 := rfl
@[simp] theorem le_cons (b : Byte) (bs : List Byte) : le (b :: bs) = b.toNat + 256 * le bs := rfl

theorem le_lt (bs : List Byte) : le bs < 256 ^ bs.length := by
  induction bs with
  | nil => simp
  | cons b bs ih =>
    have := b.isLt
    simp only [le_cons, List.length_cons, pow_succ]
    omega

theorem le_append (bs cs : List Byte) : le (bs ++ cs) = le bs + 256 ^ bs.length * le cs := by
  induction bs with
  | nil => simp
  | cons b bs ih => simp only [List.cons_append, le_cons, ih, List.length_cons, pow_succ]; ring

/-- Zero bytes at the end change nothing (R114: they widen a complete read). -/
@[simp] theorem le_append_zeros (bs : List Byte) (n : Nat) :
    le (bs ++ List.replicate n 0#8) = le bs := by
  have h : le (List.replicate n 0#8) = 0 := by
    induction n with
    | zero => rfl
    | succ n ih => simpa [List.replicate_succ] using ih
  rw [le_append, h]; simp

end Sys2Proof.Machine
end

