-- ==== Sys2Proof/Laws/Encoding.lean ====
section
/-! SUPPORT. The fields of a command word as numbers (30_encoding.md R72), and the word of its fields. -/

namespace Sys2Proof

theorem opField_toNat (w : Word) : (opField w).toNat = w.toNat % 16 := by
  simp only [opField, BitVec.extractLsb'_toNat, Nat.shiftRight_eq_div_pow]; omega

theorem bwField_toNat (w : Word) : (bwField w).toNat = w.toNat / 16 % 64 := by
  simp only [bwField, BitVec.extractLsb'_toNat, Nat.shiftRight_eq_div_pow]

theorem lmField_toNat (w : Word) : (lmField w).toNat = w.toNat / 1024 % 2 := by
  simp only [lmField, BitVec.extractLsb'_toNat, Nat.shiftRight_eq_div_pow]

theorem rsvField_toNat (w : Word) : (rsvField w).toNat = w.toNat / 2048 := by
  have := w.isLt
  simp only [rsvField, BitVec.extractLsb'_toNat, Nat.shiftRight_eq_div_pow]; omega

theorem commandWord_toNat (op : BitVec 4) (bw : BitVec 6) (lm : BitVec 1) (rsv : BitVec 21) :
    (commandWord op bw lm rsv).toNat =
      op.toNat + 16 * bw.toNat + 1024 * lm.toNat + 2048 * rsv.toNat := by
  have h1 := op.isLt
  have h2 := bw.isLt
  have h3 := lm.isLt
  simp only [commandWord, BitVec.toNat_append]
  rw [← Nat.shiftLeft_add_eq_or_of_lt h3, ← Nat.shiftLeft_add_eq_or_of_lt h2,
    ← Nat.shiftLeft_add_eq_or_of_lt h1]
  simp only [Nat.shiftLeft_eq]
  omega

@[simp] theorem opField_commandWord (op : BitVec 4) (bw : BitVec 6) (lm : BitVec 1)
    (rsv : BitVec 21) : opField (commandWord op bw lm rsv) = op := by
  apply BitVec.eq_of_toNat_eq; rw [opField_toNat, commandWord_toNat]; omega

@[simp] theorem bwField_commandWord (op : BitVec 4) (bw : BitVec 6) (lm : BitVec 1)
    (rsv : BitVec 21) : bwField (commandWord op bw lm rsv) = bw := by
  apply BitVec.eq_of_toNat_eq; rw [bwField_toNat, commandWord_toNat]; omega

@[simp] theorem lmField_commandWord (op : BitVec 4) (bw : BitVec 6) (lm : BitVec 1)
    (rsv : BitVec 21) : lmField (commandWord op bw lm rsv) = lm := by
  apply BitVec.eq_of_toNat_eq; rw [lmField_toNat, commandWord_toNat]; omega

@[simp] theorem rsvField_commandWord (op : BitVec 4) (bw : BitVec 6) (lm : BitVec 1)
    (rsv : BitVec 21) : rsvField (commandWord op bw lm rsv) = rsv := by
  apply BitVec.eq_of_toNat_eq; rw [rsvField_toNat, commandWord_toNat]; omega

/-- A word is the word of its four fields. -/
theorem commandWord_fields (w : Word) :
    commandWord (opField w) (bwField w) (lmField w) (rsvField w) = w := by
  apply BitVec.eq_of_toNat_eq
  rw [commandWord_toNat, opField_toNat, bwField_toNat, lmField_toNat, rsvField_toNat]
  omega

end Sys2Proof
end

