-- ==== Sys2Proof/Laws/State.lean ====
section
/-! SUPPORT. One lemma per field per update of State, each true by rfl, so that no proof unfolds a record
update (R136, R137, R42, R43, R28, R150). -/

namespace Sys2Proof.Machine

/-! ### The commit (R136) -/

@[simp] theorem State.commit_params (s : State) (o : CmdOk) : (s.commit o).params = s.params := rfl
@[simp] theorem State.commit_buf (s : State) (o : CmdOk) : (s.commit o).buf = s.buf := rfl
@[simp] theorem State.commit_cmd (s : State) (o : CmdOk) : (s.commit o).cmd = s.cmd := rfl
@[simp] theorem State.commit_arg (s : State) (o : CmdOk) : (s.commit o).arg = s.arg := rfl
@[simp] theorem State.commit_result (s : State) (o : CmdOk) : (s.commit o).result = o.result := rfl
@[simp] theorem State.commit_off (s : State) (o : CmdOk) : (s.commit o).off = s.off + BitVec.ofNat 32 (o.cur.off - s.mainCursor.off) := rfl
@[simp] theorem State.commit_len (s : State) (o : CmdOk) : (s.commit o).len = s.len := rfl
@[simp] theorem State.commit_consumed (s : State) (o : CmdOk) : (s.commit o).consumed = BitVec.ofNat 32 (o.cur.off - s.mainCursor.off) := rfl
@[simp] theorem State.commit_outcnt (s : State) (o : CmdOk) : (s.commit o).outcnt = BitVec.ofNat 64 o.values.length := rfl
@[simp] theorem State.commit_wob (s : State) (o : CmdOk) : (s.commit o).wob = s.wob := rfl
@[simp] theorem State.commit_err (s : State) (o : CmdOk) : (s.commit o).err = 0 := rfl
@[simp] theorem State.commit_pend (s : State) (o : CmdOk) : (s.commit o).pend = s.pend.clear := rfl
@[simp] theorem State.commit_out (s : State) (o : CmdOk) : (s.commit o).out = s.out ++ o.values := rfl
@[simp] theorem State.commit_stream (s : State) (o : CmdOk) : (s.commit o).stream = StreamRegs.idle := rfl
@[simp] theorem State.commit_draws (s : State) (o : CmdOk) : (s.commit o).draws = s.draws + 1 := rfl
@[simp] theorem State.commit_script (s : State) (o : CmdOk) : (s.commit o).script = s.script := rfl
@[simp] theorem State.commit_replies (s : State) (o : CmdOk) : (s.commit o).replies = s.replies := rfl

/-! ### The rollback (R137) -/

@[simp] theorem State.rollback_params (s : State) (e : CmdError) : (s.rollback e).params = s.params := rfl
@[simp] theorem State.rollback_buf (s : State) (e : CmdError) : (s.rollback e).buf = s.buf := rfl
@[simp] theorem State.rollback_cmd (s : State) (e : CmdError) : (s.rollback e).cmd = s.cmd := rfl
@[simp] theorem State.rollback_arg (s : State) (e : CmdError) : (s.rollback e).arg = s.arg := rfl
@[simp] theorem State.rollback_result (s : State) (e : CmdError) : (s.rollback e).result = 0 := rfl
@[simp] theorem State.rollback_off (s : State) (e : CmdError) : (s.rollback e).off = s.off := rfl
@[simp] theorem State.rollback_len (s : State) (e : CmdError) : (s.rollback e).len = s.len := rfl
@[simp] theorem State.rollback_consumed (s : State) (e : CmdError) : (s.rollback e).consumed = 0 := rfl
@[simp] theorem State.rollback_outcnt (s : State) (e : CmdError) : (s.rollback e).outcnt = 0 := rfl
@[simp] theorem State.rollback_wob (s : State) (e : CmdError) : (s.rollback e).wob = s.wob := rfl
@[simp] theorem State.rollback_err (s : State) (e : CmdError) : (s.rollback e).err = e.code := rfl
@[simp] theorem State.rollback_pend (s : State) (e : CmdError) : (s.rollback e).pend = s.pend.clear := rfl
@[simp] theorem State.rollback_out (s : State) (e : CmdError) : (s.rollback e).out = s.out := rfl
@[simp] theorem State.rollback_stream (s : State) (e : CmdError) : (s.rollback e).stream = StreamRegs.idle := rfl
@[simp] theorem State.rollback_draws (s : State) (e : CmdError) : (s.rollback e).draws = s.draws + 1 := rfl
@[simp] theorem State.rollback_script (s : State) (e : CmdError) : (s.rollback e).script = s.script := rfl
@[simp] theorem State.rollback_replies (s : State) (e : CmdError) : (s.rollback e).replies = s.replies := rfl

/-! ### An accepted CMD write (R43) -/

@[simp] theorem State.latchCommand_params (s : State) (w : Word) : (s.latchCommand w).params = s.params := rfl
@[simp] theorem State.latchCommand_buf (s : State) (w : Word) : (s.latchCommand w).buf = s.buf := rfl
@[simp] theorem State.latchCommand_cmd (s : State) (w : Word) : (s.latchCommand w).cmd = w := rfl
@[simp] theorem State.latchCommand_arg (s : State) (w : Word) : (s.latchCommand w).arg = s.arg := rfl
@[simp] theorem State.latchCommand_result (s : State) (w : Word) : (s.latchCommand w).result = s.result := rfl
@[simp] theorem State.latchCommand_off (s : State) (w : Word) : (s.latchCommand w).off = s.off := rfl
@[simp] theorem State.latchCommand_len (s : State) (w : Word) : (s.latchCommand w).len = s.len := rfl
@[simp] theorem State.latchCommand_consumed (s : State) (w : Word) : (s.latchCommand w).consumed = s.consumed := rfl
@[simp] theorem State.latchCommand_outcnt (s : State) (w : Word) : (s.latchCommand w).outcnt = s.outcnt := rfl
@[simp] theorem State.latchCommand_wob (s : State) (w : Word) : (s.latchCommand w).wob = s.wob := rfl
@[simp] theorem State.latchCommand_err (s : State) (w : Word) : (s.latchCommand w).err = s.err := rfl
@[simp] theorem State.latchCommand_pend (s : State) (w : Word) : (s.latchCommand w).pend = Pend.ofWord w s.arg := rfl
@[simp] theorem State.latchCommand_out (s : State) (w : Word) : (s.latchCommand w).out = s.out := rfl
@[simp] theorem State.latchCommand_stream (s : State) (w : Word) : (s.latchCommand w).stream = s.stream := rfl
@[simp] theorem State.latchCommand_draws (s : State) (w : Word) : (s.latchCommand w).draws = s.draws := rfl
@[simp] theorem State.latchCommand_script (s : State) (w : Word) : (s.latchCommand w).script = s.script := rfl
@[simp] theorem State.latchCommand_replies (s : State) (w : Word) : (s.latchCommand w).replies = s.replies := rfl

/-! ### An ignored write (R42) -/

@[simp] theorem State.markIgnored_params (s : State) : (s.markIgnored).params = s.params := rfl
@[simp] theorem State.markIgnored_buf (s : State) : (s.markIgnored).buf = s.buf := rfl
@[simp] theorem State.markIgnored_cmd (s : State) : (s.markIgnored).cmd = s.cmd := rfl
@[simp] theorem State.markIgnored_arg (s : State) : (s.markIgnored).arg = s.arg := rfl
@[simp] theorem State.markIgnored_result (s : State) : (s.markIgnored).result = s.result := rfl
@[simp] theorem State.markIgnored_off (s : State) : (s.markIgnored).off = s.off := rfl
@[simp] theorem State.markIgnored_len (s : State) : (s.markIgnored).len = s.len := rfl
@[simp] theorem State.markIgnored_consumed (s : State) : (s.markIgnored).consumed = s.consumed := rfl
@[simp] theorem State.markIgnored_outcnt (s : State) : (s.markIgnored).outcnt = s.outcnt := rfl
@[simp] theorem State.markIgnored_wob (s : State) : (s.markIgnored).wob = true := rfl
@[simp] theorem State.markIgnored_err (s : State) : (s.markIgnored).err = s.err := rfl
@[simp] theorem State.markIgnored_pend (s : State) : (s.markIgnored).pend = s.pend := rfl
@[simp] theorem State.markIgnored_out (s : State) : (s.markIgnored).out = s.out := rfl
@[simp] theorem State.markIgnored_stream (s : State) : (s.markIgnored).stream = s.stream := rfl
@[simp] theorem State.markIgnored_draws (s : State) : (s.markIgnored).draws = s.draws := rfl
@[simp] theorem State.markIgnored_script (s : State) : (s.markIgnored).script = s.script := rfl
@[simp] theorem State.markIgnored_replies (s : State) : (s.markIgnored).replies = s.replies := rfl

/-! ### A STATUS write (R28) -/

@[simp] theorem State.writeStatus_params (s : State) (d : Word) : (s.writeStatus d).params = s.params := rfl
@[simp] theorem State.writeStatus_buf (s : State) (d : Word) : (s.writeStatus d).buf = s.buf := rfl
@[simp] theorem State.writeStatus_cmd (s : State) (d : Word) : (s.writeStatus d).cmd = s.cmd := rfl
@[simp] theorem State.writeStatus_arg (s : State) (d : Word) : (s.writeStatus d).arg = s.arg := rfl
@[simp] theorem State.writeStatus_result (s : State) (d : Word) : (s.writeStatus d).result = s.result := rfl
@[simp] theorem State.writeStatus_off (s : State) (d : Word) : (s.writeStatus d).off = s.off := rfl
@[simp] theorem State.writeStatus_len (s : State) (d : Word) : (s.writeStatus d).len = s.len := rfl
@[simp] theorem State.writeStatus_consumed (s : State) (d : Word) : (s.writeStatus d).consumed = s.consumed := rfl
@[simp] theorem State.writeStatus_outcnt (s : State) (d : Word) : (s.writeStatus d).outcnt = s.outcnt := rfl
@[simp] theorem State.writeStatus_wob (s : State) (d : Word) : (s.writeStatus d).wob = (s.wob && !d.getLsbD 1) := rfl
@[simp] theorem State.writeStatus_err (s : State) (d : Word) : (s.writeStatus d).err = s.err := rfl
@[simp] theorem State.writeStatus_pend (s : State) (d : Word) : (s.writeStatus d).pend = s.pend := rfl
@[simp] theorem State.writeStatus_out (s : State) (d : Word) : (s.writeStatus d).out = s.out := rfl
@[simp] theorem State.writeStatus_stream (s : State) (d : Word) : (s.writeStatus d).stream = s.stream := rfl
@[simp] theorem State.writeStatus_draws (s : State) (d : Word) : (s.writeStatus d).draws = s.draws := rfl
@[simp] theorem State.writeStatus_script (s : State) (d : Word) : (s.writeStatus d).script = s.script := rfl
@[simp] theorem State.writeStatus_replies (s : State) (d : Word) : (s.writeStatus d).replies = s.replies := rfl

/-! ### The step Reset (R150, R151) -/

@[simp] theorem State.resetUnit_params (s : State) : (s.resetUnit).params = s.params := rfl
@[simp] theorem State.resetUnit_buf (s : State) : (s.resetUnit).buf = s.buf := rfl
@[simp] theorem State.resetUnit_cmd (s : State) : (s.resetUnit).cmd = 0 := rfl
@[simp] theorem State.resetUnit_arg (s : State) : (s.resetUnit).arg = 0 := rfl
@[simp] theorem State.resetUnit_result (s : State) : (s.resetUnit).result = 0 := rfl
@[simp] theorem State.resetUnit_off (s : State) : (s.resetUnit).off = 0 := rfl
@[simp] theorem State.resetUnit_len (s : State) : (s.resetUnit).len = 0 := rfl
@[simp] theorem State.resetUnit_consumed (s : State) : (s.resetUnit).consumed = 0 := rfl
@[simp] theorem State.resetUnit_outcnt (s : State) : (s.resetUnit).outcnt = 0 := rfl
@[simp] theorem State.resetUnit_wob (s : State) : (s.resetUnit).wob = false := rfl
@[simp] theorem State.resetUnit_err (s : State) : (s.resetUnit).err = 0 := rfl
@[simp] theorem State.resetUnit_pend (s : State) : (s.resetUnit).pend = Pend.reset := rfl
@[simp] theorem State.resetUnit_out (s : State) : (s.resetUnit).out = [] := rfl
@[simp] theorem State.resetUnit_stream (s : State) : (s.resetUnit).stream = StreamRegs.idle := rfl
@[simp] theorem State.resetUnit_draws (s : State) : (s.resetUnit).draws = s.draws := rfl
@[simp] theorem State.resetUnit_script (s : State) : (s.resetUnit).script = s.script := rfl
@[simp] theorem State.resetUnit_replies (s : State) : (s.resetUnit).replies = s.replies := rfl

/-! ### The latch (R38, R43) -/

@[simp] theorem Pend.clear_valid (p : Pend) : p.clear.valid = false := rfl
@[simp] theorem Pend.clear_op (p : Pend) : p.clear.op = p.op := rfl
@[simp] theorem Pend.clear_bw (p : Pend) : p.clear.bw = p.bw := rfl
@[simp] theorem Pend.clear_lm (p : Pend) : p.clear.lm = p.lm := rfl
@[simp] theorem Pend.clear_rsv (p : Pend) : p.clear.rsv = p.rsv := rfl
@[simp] theorem Pend.clear_arg (p : Pend) : p.clear.arg = p.arg := rfl
@[simp] theorem Pend.reset_valid : Pend.reset.valid = false := rfl
@[simp] theorem Pend.ofWord_valid (w a : Word) : (Pend.ofWord w a).valid = true := rfl
@[simp] theorem Pend.ofWord_op (w a : Word) : (Pend.ofWord w a).op = opField w := rfl
@[simp] theorem Pend.ofWord_bw (w a : Word) : (Pend.ofWord w a).bw = bwField w := rfl
@[simp] theorem Pend.ofWord_lm (w a : Word) : (Pend.ofWord w a).lm = lmField w := rfl
@[simp] theorem Pend.ofWord_rsv (w a : Word) : (Pend.ofWord w a).rsv = rsvField w := rfl
@[simp] theorem Pend.ofWord_arg (w a : Word) : (Pend.ofWord w a).arg = a := rfl

end Sys2Proof.Machine
end

