-- ==== Sys2Proof/Laws/Exec.lean ====
section
/-! SUPPORT. What executing a command can do, said once: its outcome is a pure function of the state, and
it is committed (R136) or rolled back (R137). -/

namespace Sys2Proof.Machine

/-- The outcome of a command's pseudocode (00_scope.md R14). A run header is no command: it has none. -/
def commandOutcome (i : Instr) (s : State) : Except CmdError CmdOk :=
  match i with
  | .rdbyte => rdbyteOutcome s.buf s.mainCursor
  | .rdn => rdnOutcome s.buf s.mainCursor s.operand
  | .rdu32 => rdu32Outcome s.buf s.mainCursor
  | .varint => varintOutcome s.buf s.draws s.mainCursor
  | .bitpack bw => withLegalWidth bw (bitpackOutcome s.buf s.mainCursor s.operand)
  | .rle bw => withLegalWidth bw (rleOutcome s.buf s.mainCursor s.operand)
  | .hybP bw => withLegalWidth bw (hybPOutcome s.buf s.draws s.mainCursor)
  | .hybL bw => withLegalWidth bw (hybLOutcome s.buf s.draws s.mainCursor s.operand)
  | .runRle _ => .error .illegalCommand
  | .runBp _ => .error .illegalCommand

/-- R22: executing a command settles its outcome. -/
theorem exec_command (i : Instr) (s : State) (h : i.isCommand = true) :
    exec i s = s.settle (commandOutcome i s) := by
  cases i with
  | rdbyte => rfl
  | rdn => rfl
  | rdu32 => rfl
  | varint => rfl
  | bitpack bw => rfl
  | rle bw => rfl
  | hybP bw => rfl
  | hybL bw => rfl
  | runRle c => exact absurd h (by simp [Instr.isCommand, Instr.isRun])
  | runBp g => exact absurd h (by simp [Instr.isCommand, Instr.isRun])

@[simp] theorem State.settle_ok (s : State) (o : CmdOk) : s.settle (.ok o) = .next (s.commit o) := rfl

@[simp] theorem State.settle_error (s : State) (e : CmdError) :
    s.settle (.error e) = .next (s.rollback e) := rfl

/-- A settled command is a commit or a rollback, and nothing else. -/
theorem State.settle_cases {s t : State} {r : Except CmdError CmdOk} (h : s.settle r = .next t) :
    (∃ o, r = .ok o ∧ t = s.commit o) ∨ ∃ e, r = .error e ∧ t = s.rollback e := by
  cases r with
  | ok o => exact .inl ⟨o, rfl, by simpa using h.symm⟩
  | error e => exact .inr ⟨e, rfl, by simpa using h.symm⟩

/-- R136 in the claims' terms: the commit of an outcome whose cursor moved `k` bytes. -/
theorem State.commit_eq_committed (s : State) (o : CmdOk) (k : Nat)
    (h : o.cur.off = s.mainCursor.off + k) : s.commit o = s.committed k o.result o.values := by
  have hk : o.cur.off - s.mainCursor.off = k := by omega
  unfold State.commit State.committed
  simp only [hk]
  rfl

/-- R137 in the claims' terms. -/
theorem State.rollback_eq_rolledBack (s : State) (e : CmdError) :
    s.rollback e = s.rolledBack e.code := rfl

end Sys2Proof.Machine
end

