-- ==== Sys2Proof/Laws/Varint.lean ====
section
/-! SUPPORT. What `varintRead` does (41_varint.md R100 to R103): over a varint it gives its value and the
cursor after it, and otherwise the cursor holds no terminating byte. -/

namespace Sys2Proof.Machine

theorem varintContinues_iff (b : Byte) : varintContinues b = true ↔ 128 ≤ b.toNat := by
  have := b.isLt
  unfold varintContinues
  rw [BitVec.getLsbD, Nat.testBit_eq_decide_div_mod_eq]
  simp only [decide_eq_true_eq]
  omega

theorem varintSum_succ (m : Memory) (off k : Nat) :
    varintSum m off (k + 1) =
      varintSum m off k + (Memory.byte m (off + k)).toNat % 128 * 2 ^ (7 * k) := by
  simp [varintSum, List.range_succ]

/-- The sum of k groups is below 2^(7k). -/
theorem varintSum_lt (m : Memory) (off k : Nat) : varintSum m off k < 2 ^ (7 * k) := by
  induction k with
  | zero => simp [varintSum]
  | succ k ih =>
    have h : (Memory.byte m (off + k)).toNat % 128 * 2 ^ (7 * k) ≤ 127 * 2 ^ (7 * k) :=
      Nat.mul_le_mul_right _ (by omega)
    rw [varintSum_succ, Nat.mul_add, Nat.pow_add]
    omega

/-- R100: the loop, started after `k` bytes of the varint at `off`, runs on to its terminating byte. -/
theorem varintLoop_terminates (m : Memory) (off lim : Nat) :
    ∀ (n fuel k : Nat), n < fuel → off + k + n < lim →
      (∀ j, j < n → varintContinues (Memory.byte m (off + (k + j))) = true) →
      varintContinues (Memory.byte m (off + (k + n))) = false →
      varintLoop m fuel { off := off + k, lim := lim } k (varintSum m off k) =
        .ok (k + n + 1, varintSum m off (k + n + 1), { off := off + (k + n + 1), lim := lim }) := by
  intro n
  induction n with
  | zero =>
    intro fuel k hf hl _ hz
    obtain ⟨fuel, rfl⟩ : ∃ f, fuel = f + 1 := ⟨fuel - 1, by omega⟩
    have hz' : varintContinues (Memory.byte m (off + k)) = false := by simpa using hz
    unfold varintLoop
    rw [curReadByte_fits (by simp [curRem]; omega)]
    simp [hz', varintSum_succ, varintGroup, Nat.add_assoc]
  | succ n ih =>
    intro fuel k hf hl hs hz
    obtain ⟨fuel, rfl⟩ : ∃ f, fuel = f + 1 := ⟨fuel - 1, by omega⟩
    have h0 : varintContinues (Memory.byte m (off + k)) = true := by simpa using hs 0 (by omega)
    unfold varintLoop
    rw [curReadByte_fits (by simp [curRem]; omega)]
    have := ih fuel (k + 1) (by omega) (by omega)
      (fun j hj => by rw [show k + 1 + j = k + (j + 1) by omega]; exact hs (j + 1) (by omega))
      (by rw [show k + 1 + n = k + (n + 1) by omega]; exact hz)
    rw [varintSum_succ] at this
    simp only [h0, if_true, varintGroup]
    rw [show off + (k + 1) = off + k + 1 by omega] at this
    rw [this, show k + 1 + n + 1 = k + (n + 1) + 1 by omega]

/-- R103: with a continuation bit in every byte up to the limit the loop fails, whatever its fuel. -/
theorem varintLoop_unterminated (m : Memory) :
    ∀ (fuel : Nat) (c : Cursor) (k acc : Nat),
      (∀ a, c.off ≤ a → a < c.lim → varintContinues (Memory.byte m a) = true) →
      varintLoop m fuel c k acc = .error .truncatedInput := by
  intro fuel
  induction fuel with
  | zero => intros; rfl
  | succ fuel ih =>
    intro c k acc h
    unfold varintLoop
    by_cases hr : curRem c = 0
    · rw [curReadByte_short hr]
    · rw [curReadByte_fits (by omega)]
      have hb := h c.off le_rfl (by unfold curRem at hr; omega)
      simp only [hb, if_true]
      exact ih _ _ _ fun a ha hl => h a (by simp only at ha; omega) hl

/-- R100, R102: over a varint of `k` bytes `varintRead` gives its value and moves past it. -/
theorem varintRead_of_varintAt {m : Memory} {epoch k : Nat} {c : Cursor} {v : Word}
    (h : VarintAt m epoch c.off c.lim k v) :
    varintRead m epoch c = .ok (v, { off := c.off + k, lim := c.lim }) := by
  obtain ⟨hk, hl, hs, hz, hv⟩ := h
  have hloop := varintLoop_terminates m c.off c.lim (k - 1) (curRem c + 1) 0
    (by unfold curRem; omega) (by omega)
    (fun j hj => by rw [Nat.zero_add]; exact hs j (by omega))
    (by rw [Nat.zero_add]; exact hz)
  rw [show 0 + (k - 1) + 1 = k by omega] at hloop
  have h0 : varintSum m c.off 0 = 0 := rfl
  rw [h0] at hloop
  change varintLoop m (curRem c + 1) c 0 0 = _ at hloop
  unfold varintRead
  rw [hloop, hv]
  rfl

/-- R103: without a terminating byte below the limit `varintRead` raises `TruncatedInput`. -/
theorem varintRead_unterminated {m : Memory} {epoch : Nat} {c : Cursor}
    (h : ∀ a, c.off ≤ a → a < c.lim → (Memory.byte m a).getLsbD 7 = true) :
    varintRead m epoch c = .error .truncatedInput := by
  unfold varintRead
  rw [varintLoop_unterminated m _ _ _ _ h]

/-- A terminating byte at `a` below the limit ends a varint at or before it. -/
theorem exists_varintAt {m : Memory} (epoch : Nat) {off lim a : Nat} (ho : off ≤ a) (hl : a < lim)
    (h : (Memory.byte m a).getLsbD 7 = false) :
    ∃ k v, k ≤ a + 1 - off ∧ VarintAt m epoch off lim k v := by
  have hex : ∃ j, (Memory.byte m (off + j)).getLsbD 7 = false :=
    ⟨a - off, by rw [show off + (a - off) = a by omega]; exact h⟩
  classical
  have hmin := Nat.find_min' hex (m := a - off) (by rw [show off + (a - off) = a by omega]; exact h)
  refine ⟨Nat.find hex + 1, _, by omega, by omega, by omega, fun j hj => ?_, ?_, rfl⟩
  · have := Nat.find_min hex (m := j) (by omega)
    simpa using this
  · simpa using Nat.find_spec hex

/-- R103: `varintRead` either reads a varint or finds no terminating byte. -/
theorem varintRead_cases (m : Memory) (epoch : Nat) (c : Cursor) :
    (∃ k v, VarintAt m epoch c.off c.lim k v ∧
      varintRead m epoch c = .ok (v, { off := c.off + k, lim := c.lim })) ∨
    ((∀ a, c.off ≤ a → a < c.lim → (Memory.byte m a).getLsbD 7 = true) ∧
      varintRead m epoch c = .error .truncatedInput) := by
  by_cases h : ∀ a, c.off ≤ a → a < c.lim → (Memory.byte m a).getLsbD 7 = true
  · exact .inr ⟨h, varintRead_unterminated h⟩
  · obtain ⟨a, h1, h2, h3⟩ : ∃ a, c.off ≤ a ∧ a < c.lim ∧ (Memory.byte m a).getLsbD 7 = false := by
      by_contra hn
      exact h fun a h1 h2 => by
        by_contra h3
        exact hn ⟨a, h1, h2, by simpa using h3⟩
    obtain ⟨k, v, _, hv⟩ := exists_varintAt epoch h1 h2 h3
    exact .inl ⟨k, v, hv, varintRead_of_varintAt hv⟩

/-- Two varints at one place have one length and one value. -/
theorem VarintAt.unique {m : Memory} {epoch off lim k k' : Nat} {v v' : Word}
    (h : VarintAt m epoch off lim k v) (h' : VarintAt m epoch off lim k' v') : k = k' ∧ v = v' := by
  have e := varintRead_of_varintAt (c := { off := off, lim := lim }) h
  rw [varintRead_of_varintAt (c := { off := off, lim := lim }) h'] at e
  simp only [Except.ok.injEq, Prod.mk.injEq, Cursor.mk.injEq, and_true] at e
  exact ⟨by omega, e.1.symm⟩

end Sys2Proof.Machine
end

