-- ==== Sys2Proof/Laws/Runs.lean ====
section
/-! SUPPORT. What the run decoders do (42_bitpack.md R106 to R110, 43_rle.md R113 to R116), and the
selection of a run by its header (44_hybrid.md R122): a run that fits gives its values and moves the
cursor past its body, and one that does not fit raises `TruncatedInput`. -/

namespace Sys2Proof.Machine

theorem unpack_width_zero (bs : List Byte) (v : Nat) : unpack bs 0 v = 0 := rfl

theorem sum_bits_lt (f : Nat → Bool) (n : Nat) :
    ((List.range n).map fun i => (f i).toNat * 2 ^ i).sum < 2 ^ n := by
  induction n with
  | zero => simp
  | succ n ih =>
    have h : (f n).toNat * 2 ^ n ≤ 1 * 2 ^ n :=
      Nat.mul_le_mul_right _ (by cases f n <;> simp)
    rw [List.range_succ, List.map_append, List.sum_append, pow_succ]
    simp only [List.map_cons, List.map_nil, List.sum_cons, List.sum_nil]
    omega

/-- Every unpacked value is below 2^bw (R107). -/
theorem unpack_lt (bs : List Byte) (bw v : Nat) : unpack bs bw v < 2 ^ bw :=
  sum_bits_lt (fun i => bodyBit bs (v * bw + i)) bw

theorem bitPackRun_fits {m : Memory} {c : Cursor} {h : Word} {bw : Nat}
    (hf : h.toNat / 2 * bw ≤ curRem c) :
    bitPackRun m c h bw =
      .ok ((List.range (8 * (h.toNat / 2))).map fun v =>
          BitVec.ofNat 64 (unpack (memRead m c.off (h.toNat / 2 * bw)) bw v),
        { off := c.off + h.toNat / 2 * bw, lim := c.lim }) := by
  unfold bitPackRun
  by_cases hb : bw = 0
  · subst hb
    simp only [if_true, Config.group, headerCount, unpack_width_zero, Nat.mul_zero, Nat.add_zero,
      List.map_const', List.length_range]
    rfl
  · simp only [hb, if_false, Config.group, headerCount]
    rw [curReadN_fits hf]

theorem bitPackRun_short {m : Memory} {c : Cursor} {h : Word} {bw : Nat}
    (hf : curRem c < h.toNat / 2 * bw) : bitPackRun m c h bw = .error .truncatedInput := by
  unfold bitPackRun
  have hb : bw ≠ 0 := by rintro rfl; simp at hf
  simp only [hb, if_false, headerCount]
  rw [curReadN_short hf]

theorem rleRun_fits {m : Memory} {c : Cursor} {h : Word} {bw : Nat} (hf : (bw + 7) / 8 ≤ curRem c) :
    rleRun m c h bw =
      .ok (List.replicate (h.toNat / 2) (BitVec.ofNat 64 (le (memRead m c.off ((bw + 7) / 8)))),
        { off := c.off + (bw + 7) / 8, lim := c.lim }) := by
  unfold rleRun rleWidth
  simp only
  rw [curReadN_fits hf]
  simp [headerCount]

theorem rleRun_short {m : Memory} {c : Cursor} {h : Word} {bw : Nat} (hf : curRem c < (bw + 7) / 8) :
    rleRun m c h bw = .error .truncatedInput := by
  unfold rleRun rleWidth
  simp only
  rw [curReadN_short hf]

/-! ### Headers -/

theorem encode_runRle_toNat (c : BitVec 31) : (encode (.runRle c)).toNat = 2 * c.toNat := by
  have := c.isLt
  simp only [encode, BitVec.toNat_append]
  rw [Nat.shiftLeft_eq]; simp; omega

theorem encode_runBp_toNat (g : BitVec 31) : (encode (.runBp g)).toNat = 2 * g.toNat + 1 := by
  have := g.isLt
  simp only [encode, BitVec.toNat_append]
  rw [← Nat.shiftLeft_add_eq_or_of_lt (by decide), Nat.shiftLeft_eq]
  simp; omega

theorem extract_high_toNat (h : Word) : (h.extractLsb' 1 31).toNat = h.toNat / 2 := by
  have := h.isLt
  rw [BitVec.extractLsb'_toNat, Nat.shiftRight_eq_div_pow]
  omega

theorem getLsbD_zero_iff (h : Word) : h.getLsbD 0 = true ↔ h.toNat % 2 = 1 := by
  rw [BitVec.getLsbD, Nat.testBit_zero]; simp

/-- R82: a header whose bit 0 is clear is the word of the RLE run of its count. -/
theorem encode_runRle_extract {h : Word} (hb : h.getLsbD 0 = false) :
    encode (.runRle (h.extractLsb' 1 31)) = h := by
  have h0 : ¬ h.toNat % 2 = 1 := by rw [← getLsbD_zero_iff, hb]; simp
  apply BitVec.eq_of_toNat_eq
  rw [encode_runRle_toNat, extract_high_toNat]; omega

/-- R82: a header whose bit 0 is set is the word of the bit-packed run of its groups. -/
theorem encode_runBp_extract {h : Word} (hb : h.getLsbD 0 = true) :
    encode (.runBp (h.extractLsb' 1 31)) = h := by
  have h0 := (getLsbD_zero_iff h).1 hb
  apply BitVec.eq_of_toNat_eq
  rw [encode_runBp_toNat, extract_high_toNat]; omega

/-! ### The selected run (R122) -/

/-- A run whose body fits appends its values and moves past its body. -/
theorem selectRun_fits {m : Memory} {bw : Nat} {h : Word} {r : StreamRegs}
    (hf : bodyLength bw h ≤ curRem r.sub) :
    selectRun m bw h r =
      .ok { sub := { off := r.sub.off + bodyLength bw h, lim := r.sub.lim }
            vals := r.vals ++ runValues bw h (memRead m r.sub.off (bodyLength bw h)) } := by
  unfold selectRun
  cases hb : h.getLsbD 0 with
  | true =>
    simp only [bodyLength, hb, if_true] at hf ⊢
    simp only [runBpOn, encode_runBp_extract hb]
    rw [bitPackRun_fits hf]
    simp only [StreamRegs.append, runValues, hb, if_true]
  | false =>
    simp only [bodyLength, hb, Bool.false_eq_true, if_false] at hf ⊢
    simp only [runRleOn, encode_runRle_extract hb]
    rw [rleRun_fits hf]
    simp only [StreamRegs.append, runValues, hb, Bool.false_eq_true, if_false]

/-- R124: a run whose body does not fit raises `TruncatedInput`. -/
theorem selectRun_short {m : Memory} {bw : Nat} {h : Word} {r : StreamRegs}
    (hf : curRem r.sub < bodyLength bw h) : selectRun m bw h r = .error .truncatedInput := by
  unfold selectRun
  cases hb : h.getLsbD 0 with
  | true =>
    simp only [bodyLength, hb, if_true] at hf ⊢
    simp only [runBpOn, encode_runBp_extract hb]
    rw [bitPackRun_short hf]; rfl
  | false =>
    simp only [bodyLength, hb, Bool.false_eq_true, if_false] at hf ⊢
    simp only [runRleOn, encode_runRle_extract hb]
    rw [rleRun_short hf]; rfl

end Sys2Proof.Machine
end

