-- ==== Sys2Proof/Laws/Hybrid.lean ====
section
/-! SUPPORT. What the loop over a payload does (44_hybrid.md R121 to R124): it succeeds exactly on a payload
that is runs back to back (`StreamOf`), and raises `TruncatedInput` otherwise. -/

namespace Sys2Proof.Machine

theorem VarintAt.pos {m : Memory} {epoch off lim k : Nat} {v : Word}
    (h : VarintAt m epoch off lim k v) : 0 < k := h.1

theorem VarintAt.le {m : Memory} {epoch off lim k : Nat} {v : Word}
    (h : VarintAt m epoch off lim k v) : off + k ≤ lim := h.2.1

theorem StreamOf.off_le {m : Memory} {epoch bw off lim : Nat} {vs : List Val}
    (h : StreamOf m epoch bw off lim vs) : off ≤ lim := by
  induction h with
  | done lim => exact le_rfl
  | run hv _ _ _ => exact Nat.le_trans (Nat.le_add_right _ _) hv.le

/-- One round over a header and its body, both inside the payload. -/
theorem hybridRound_fits {m : Memory} {epoch bw k : Nat} {h : Word} {r : StreamRegs}
    (hv : VarintAt m epoch r.sub.off r.sub.lim k h)
    (hf : r.sub.off + k + bodyLength bw h ≤ r.sub.lim) :
    hybridRound m epoch bw r =
      .ok { sub := { off := r.sub.off + k + bodyLength bw h, lim := r.sub.lim }
            vals := r.vals ++ runValues bw h (memRead m (r.sub.off + k) (bodyLength bw h)) } := by
  unfold hybridRound
  rw [varintRead_of_varintAt hv]
  simp only
  rw [selectRun_fits (by simp only [curRem]; omega)]

/-- R124: a round whose body runs past the payload's end fails. -/
theorem hybridRound_short {m : Memory} {epoch bw k : Nat} {h : Word} {r : StreamRegs}
    (hv : VarintAt m epoch r.sub.off r.sub.lim k h)
    (hf : r.sub.lim < r.sub.off + k + bodyLength bw h) :
    hybridRound m epoch bw r = .error .truncatedInput := by
  have := hv.le
  unfold hybridRound
  rw [varintRead_of_varintAt hv]
  simp only
  rw [selectRun_short (by simp only [curRem]; omega)]

/-- R121: over a payload that is runs back to back the loop gives all their values, in order, and ends
exactly at the payload's end. -/
theorem hybridLoop_of_streamOf {m : Memory} {epoch bw off lim : Nat} {vs : List Val}
    (h : StreamOf m epoch bw off lim vs) (fuel : Nat) (hf : lim - off ≤ fuel) (acc : List Val) :
    hybridLoop m epoch bw fuel { sub := { off := off, lim := lim }, vals := acc } =
      .ok { sub := { off := lim, lim := lim }, vals := acc ++ vs } := by
  induction h generalizing fuel acc with
  | done lim => cases fuel <;> simp [hybridLoop, curRem]
  | @run off lim k h vs hv hb _ ih =>
    have hk := hv.pos
    have hl := hv.le
    obtain ⟨fuel, rfl⟩ : ∃ f, fuel = f + 1 := ⟨fuel - 1, by omega⟩
    unfold hybridLoop
    rw [if_neg (by simp only [curRem]; omega), hybridRound_fits hv hb]
    simp only
    rw [ih fuel (by omega), List.append_assoc]

/-- R121, R123, R124: the loop over any payload, with a round for every byte: it decodes the runs the
payload is, or the payload is no sequence of runs and it raises `TruncatedInput`. -/
theorem hybridLoop_cases (m : Memory) (epoch bw : Nat) :
    ∀ (fuel off lim : Nat) (acc : List Val), off ≤ lim → lim - off ≤ fuel →
      (∃ vs, StreamOf m epoch bw off lim vs ∧
        hybridLoop m epoch bw fuel { sub := { off := off, lim := lim }, vals := acc } =
          .ok { sub := { off := lim, lim := lim }, vals := acc ++ vs }) ∨
      ((¬ ∃ vs, StreamOf m epoch bw off lim vs) ∧
        hybridLoop m epoch bw fuel { sub := { off := off, lim := lim }, vals := acc } =
          .error .truncatedInput) := by
  intro fuel
  induction fuel with
  | zero =>
    intro off lim acc ho hf
    obtain rfl : off = lim := by omega
    exact .inl ⟨[], .done _, hybridLoop_of_streamOf (.done _) 0 (by omega) acc⟩
  | succ fuel ih =>
    intro off lim acc ho hf
    by_cases he : off = lim
    · subst he
      exact .inl ⟨[], .done _, hybridLoop_of_streamOf (.done _) _ (by omega) acc⟩
    have hstart : ∀ r, hybridRound m epoch bw { sub := { off := off, lim := lim }, vals := acc } = r →
        hybridLoop m epoch bw (fuel + 1) { sub := { off := off, lim := lim }, vals := acc } =
          match r with
          | .error e => .error e
          | .ok r' => hybridLoop m epoch bw fuel r' := by
      rintro r rfl
      conv_lhs => unfold hybridLoop
      refine (if_neg (by simp only [curRem]; omega)).trans ?_
      cases hybridRound m epoch bw _ <;> rfl
    rcases varintRead_cases m epoch { off := off, lim := lim } with ⟨k, h, hv, _⟩ | ⟨hn, herr⟩
    · have hk := hv.pos
      have hl := hv.le
      by_cases hb : off + k + bodyLength bw h ≤ lim
      · rw [hstart _ (hybridRound_fits hv hb)]
        simp only
        rcases ih (off + k + bodyLength bw h) lim
            (acc ++ runValues bw h (memRead m (off + k) (bodyLength bw h))) hb (by omega)
          with ⟨vs, hs, he'⟩ | ⟨hs, he'⟩
        · exact .inl ⟨_, .run hv hb hs, by rw [he', List.append_assoc]⟩
        · refine .inr ⟨?_, he'⟩
          rintro ⟨vs, hvs⟩
          cases hvs with
          | done => exact he rfl
          | run hv' hb' hs' =>
            obtain ⟨rfl, rfl⟩ := hv.unique hv'
            exact hs ⟨_, hs'⟩
      · rw [hstart _ (hybridRound_short hv (by simp only; omega))]
        refine .inr ⟨?_, rfl⟩
        rintro ⟨vs, hvs⟩
        cases hvs with
        | done => exact he rfl
        | run hv' hb' hs' =>
          obtain ⟨rfl, rfl⟩ := hv.unique hv'
          exact hb hb'
    · have hround : hybridRound m epoch bw { sub := { off := off, lim := lim }, vals := acc } =
          .error .truncatedInput := by
        unfold hybridRound; rw [herr]
      rw [hstart _ hround]
      refine .inr ⟨?_, rfl⟩
      rintro ⟨vs, hvs⟩
      cases hvs with
      | done => exact he rfl
      | run hv' hb' hs' =>
        have hk := hv'.pos
        have hl := hv'.le
        have hz := hv'.2.2.2.1
        simp only at hn
        rw [hn _ (by omega) (by omega)] at hz
        exact Bool.noConfusion hz

/-- R119 to R121: a payload that fits. -/
theorem hybridPayload_cases (m : Memory) (epoch bw : Nat) (n : Word) (c : Cursor)
    (h : n.toNat ≤ curRem c) :
    (∃ vs, StreamOf m epoch bw c.off (c.off + n.toNat) vs ∧
      hybridPayload m epoch bw n c =
        .ok { result := n, values := vs, cur := { off := c.off + n.toNat, lim := c.lim } }) ∨
    ((¬ ∃ vs, StreamOf m epoch bw c.off (c.off + n.toNat) vs) ∧
      hybridPayload m epoch bw n c = .error .truncatedInput) := by
  unfold hybridPayload
  rw [curSlice_fits h]
  simp only
  rcases hybridLoop_cases m epoch bw n.toNat c.off (c.off + n.toNat) [] (by omega) (by omega) with
    ⟨vs, hs, he⟩ | ⟨hs, he⟩
  · exact .inl ⟨vs, hs, by rw [he]; simp⟩
  · exact .inr ⟨hs, by rw [he]⟩

theorem hybridPayload_short {m : Memory} {epoch bw : Nat} {n : Word} {c : Cursor}
    (h : curRem c < n.toNat) : hybridPayload m epoch bw n c = .error .truncatedInput := by
  unfold hybridPayload
  rw [curSlice_short h]

/-- A payload has at most one reading as runs. -/
theorem StreamOf.unique {m : Memory} {epoch bw off lim : Nat} {vs vs' : List Val}
    (h : StreamOf m epoch bw off lim vs) (h' : StreamOf m epoch bw off lim vs') : vs = vs' := by
  have e := hybridLoop_of_streamOf h (lim - off) le_rfl []
  rw [hybridLoop_of_streamOf h' (lim - off) le_rfl []] at e
  simpa using e.symm

end Sys2Proof.Machine
end

