-- ==== Sys2Proof/Laws/PerInstr.lean ====
section
/-! SUPPORT. Statements made instruction by instruction. `EncodeRow`: the word of an instruction lies in its
row of the opcode table, `w & mask = match` (30_encoding.md R74, R82). -/

namespace Sys2Proof

/-- Bit 0 of a run header. -/
theorem append_and_one (x : BitVec 31) (b : BitVec 1) :
    (x ++ b : BitVec 32) &&& 1 = (0 : BitVec 31) ++ b := by
  apply BitVec.eq_of_getLsbD_eq
  intro i hi
  have h1 : (1 : BitVec 32).getLsbD i = decide (i = 0) := by
    rw [show (1 : BitVec 32) = 1#32 from rfl, BitVec.getLsbD_one]; simp
  rw [BitVec.getLsbD_and, h1, BitVec.getLsbD_append, BitVec.getLsbD_append]
  by_cases h : i = 0
  · subst h; simp
  · have : ¬ i < 1 := by omega
    simp [h, this]

end Sys2Proof

namespace Sys2Proof.Laws.EncodeRow

/-- The encoded word meets the mask and match of its row. -/
def Statement (i : Instr) : Prop := encode i &&& rowMask i = rowMatch i

theorem rdbyte : Statement .rdbyte := by unfold Statement; decide
theorem rdn : Statement .rdn := by unfold Statement; decide
theorem rdu32 : Statement .rdu32 := by unfold Statement; decide
theorem varint : Statement .varint := by unfold Statement; decide
theorem bitpack (bw : BitVec 6) : Statement (.bitpack bw) := by unfold Statement; revert bw; decide
theorem rle (bw : BitVec 6) : Statement (.rle bw) := by unfold Statement; revert bw; decide
theorem hybP (bw : BitVec 6) : Statement (.hybP bw) := by unfold Statement; revert bw; decide
theorem hybL (bw : BitVec 6) : Statement (.hybL bw) := by unfold Statement; revert bw; decide

theorem runRle (count : BitVec 31) : Statement (.runRle count) := by
  unfold Statement
  exact (append_and_one count 0#1).trans rfl

theorem runBp (numGroups : BitVec 31) : Statement (.runBp numGroups) := by
  unfold Statement
  exact (append_and_one numGroups 1#1).trans rfl

end Sys2Proof.Laws.EncodeRow
end

