-- ==== Sys2Proof/Laws/Turns.lean ====
section
/-! SUPPORT. What a register read and one poll of a WAIT can change, said once (10_state.md R41,
30_encoding.md R89). -/

namespace Sys2Proof.Machine

/-- R41: a register read appends one reply and may take a draw. It changes nothing else. -/
theorem regRead_cases (r : Reg) (s : State) :
    ∃ v n, regRead r s = { s with replies := s.replies ++ [.reg v], draws := n } := by
  unfold regRead
  split
  · exact ⟨_, _, rfl⟩
  · exact ⟨_, s.draws, rfl⟩

/-- R89: a poll of a WAIT is a register read that leaves the WAIT in the script exactly while BUSY = 1. -/
theorem waitTurn_cases (ahead : Nat) (rest : List Turn) (s : State) :
    ∃ v n, waitTurn ahead rest s =
      { s with
        script := if s.busy then waitAgain ahead rest else rest
        replies := s.replies ++ [.reg v]
        draws := n } :=
  regRead_cases .status _

/-- The turns a WAIT leaves after a poll that read BUSY = 1 are its own or those that stood behind it. -/
theorem mem_waitAgain {ahead : Nat} {rest : List Turn} {t : Turn} (h : t ∈ waitAgain ahead rest) :
    t = .unit ∨ (∃ k, t = .wait k) ∨ t ∈ rest := by
  cases ahead with
  | zero =>
    rcases List.mem_cons.1 h with rfl | h
    · exact .inl rfl
    · rcases List.mem_cons.1 h with rfl | h
      · exact .inr (.inl ⟨0, rfl⟩)
      · exact .inr (.inr h)
  | succ k =>
    rcases List.mem_cons.1 h with rfl | h
    · exact .inr (.inl ⟨k, rfl⟩)
    · exact .inr (.inr h)

end Sys2Proof.Machine
end

