-- ==== Sys2Proof/Tests/Slice0.lean ====
section
/-! SUPPORT. The model's own tests. Expected values are those of the spec: the match and mask columns of
30_encoding.md R74, its R88, and the vectors X1 to R-4 and programs of 95_test_vectors.md (derived there
from the rules, not from this model). The `witness_` theorems show a state and operands that meet all the
hypotheses of an obligation together. -/

open Sys2Proof Sys2Proof.Machine

namespace Sys2Proof.Tests

/-! ## Helpers -/

/-- The conventions of 95_test_vectors.md: BUF_SIZE = 64, OUT_DEPTH = ∞, the state after reset. -/
def fresh : State := State.resetWith { bufSize := 64, outDepth := none }

/-- `fresh` with the bytes at BUF[0…], LEN their count, and OFF. -/
def filled (bytes : List Byte) (off : Word) : State :=
  { fresh with buf := Memory.writeAll [] 0 bytes, len := BitVec.ofNat 32 bytes.length, off := off }

/-- … and ARG, with the command word accepted. -/
def latchedWith (bytes : List Byte) (off arg word : Word) : State :=
  State.latchCommand { filled bytes off with arg := arg } word

/-- The fields a vector lists: RESULT, CONSUMED, OFF, OUTCNT, ERR and the values in OUT. -/
structure Seen where
  result : Word
  consumed : Word
  off : Word
  outcnt : BitVec 64
  err : BitVec 4
  out : List Val
deriving DecidableEq, Repr

/-- What one step leaves of those fields. -/
def seenAfter (s : State) : Option Seen :=
  match step s with
  | .next t =>
    some
      { result := t.result
        consumed := t.consumed
        off := t.off
        outcnt := t.outcnt
        err := t.err
        out := t.out }
  | .fault _ => none
  | .refused _ => none

/-- A vector's command at OFF = 0. -/
def vec (bytes : List Byte) (arg word : Word) : Option Seen := seenAfter (latchedWith bytes 0 arg word)

/-- "→ OK" at OFF = 0. -/
def ok (result c n : Nat) (out : List Val) : Option Seen :=
  some
    { result := BitVec.ofNat 32 result
      consumed := BitVec.ofNat 32 c
      off := BitVec.ofNat 32 c
      outcnt := BitVec.ofNat 64 n
      err := 0
      out := out }

/-- "→ ERR e" at OFF = 0. -/
def fails (e : BitVec 4) : Option Seen :=
  some { result := 0, consumed := 0, off := 0, outcnt := 0, err := e, out := [] }

/-! ## WellFormed refuses an ill-formed term, for each check -/

theorem test_wf_bitpack : Instr.wf (.bitpack 33) = false ∧ Instr.wf (.bitpack 32) = true := by decide
theorem test_wf_rle : Instr.wf (.rle 33) = false ∧ Instr.wf (.rle 0) = true := by decide
theorem test_wf_hybP : Instr.wf (.hybP 63) = false ∧ Instr.wf (.hybP 32) = true := by decide
theorem test_wf_hybL : Instr.wf (.hybL 33) = false ∧ Instr.wf (.hybL 32) = true := by decide
theorem test_wf_params :
    Config.Params.legal { bufSize := 0, outDepth := none } = false ∧
    Config.Params.legal { bufSize := 2 ^ 31, outDepth := none } = false ∧
    Config.Params.legal { bufSize := 64, outDepth := some 0 } = false ∧
    Config.Params.legal { bufSize := 2 ^ 31 - 1, outDepth := some 1 } = true := by decide

/-! ## Decoding: words written out from the spec's encodings (R72, R74, R82, R88) -/

theorem test_decode_rdbyte : decodeCommand 0b00000000000000000000000000000001 = .ok .rdbyte := by decide
theorem test_decode_rdn : decodeCommand 0b00000000000000000000000000000010 = .ok .rdn := by decide
theorem test_decode_rdu32 : decodeCommand 0b00000000000000000000000000000011 = .ok .rdu32 := by decide
theorem test_decode_varint : decodeCommand 0b00000000000000000000000000000100 = .ok .varint := by decide
/-- BITPACK, BW = 000011. -/
theorem test_decode_bitpack : decodeCommand 0b00000000000000000000000000110101 = .ok (.bitpack 3) := by decide
/-- RLE, BW = 101000: 40 decodes, and raises when it executes (vector L11). -/
theorem test_decode_rle : decodeCommand 0b00000000000000000000001010000110 = .ok (.rle 40) := by decide
/-- HYB.P, LM = 0, BW = 100000. -/
theorem test_decode_hybP : decodeCommand 0b00000000000000000000001000000111 = .ok (.hybP 32) := by decide
/-- HYB.L, LM = 1, BW = 000011. -/
theorem test_decode_hybL : decodeCommand 0b00000000000000000000010000110111 = .ok (.hybL 3) := by decide
/-- R87: c = 3 gives h = 6. -/
theorem test_decode_runRle : decodeHeader 0b00000000000000000000000000000110 = .runRle 3 := by decide
/-- R87: g = 1 gives h = 3. -/
theorem test_decode_runBp : decodeHeader 0b00000000000000000000000000000011 = .runBp 1 := by decide
/-- Vectors E1 to E5, V14. -/
theorem test_decode_illegal :
    decodeCommand 0x000 = .error .reservedOpcode ∧ decodeCommand 0x008 = .error .reservedOpcode ∧
    decodeCommand 0x00F = .error .reservedOpcode ∧
    decodeCommand 0x406 = .error .lengthModeMustBeZero ∧
    decodeCommand 0x805 = .error .reservedBitsSet ∧ decodeCommand 0xA35 = .error .reservedBitsSet ∧
    decodeCommand 0x014 = .error .widthMustBeZero := by decide
/-- R87: the bytes of the headers 6, 3 and 200. -/
theorem test_varint_bytes :
    varintBytes 6 = [0x06] ∧ varintBytes 3 = [0x03] ∧ varintBytes 200 = [0xC8, 0x01] := by decide
/-- The words of the opcode table as the table numbers them; the run headers by words no command has. -/
theorem test_decode_table :
    decodeTableWord 32 0x00000001 = some .rdbyte ∧ decodeTableWord 32 0x00000002 = some .rdn ∧
    decodeTableWord 32 0x00000003 = some .rdu32 ∧ decodeTableWord 32 0x00000004 = some .varint ∧
    decodeTableWord 32 0x00000035 = some (.bitpack 3) ∧ decodeTableWord 32 0x00000086 = some (.rle 8) ∧
    decodeTableWord 32 0x00000037 = some (.hybP 3) ∧ decodeTableWord 32 0x00000437 = some (.hybL 3) ∧
    decodeTableWord 32 0x00000000 = some (.runRle 0) ∧
    decodeTableWord 32 0x00000009 = some (.runBp 4) := by decide

/-! ## The commands: vectors of 95_test_vectors.md, at most two an instruction -/

theorem test_rdbyte_C1 : vec [0xA7] 0 0x001 = ok 0xA7 1 0 [] := by decide
theorem test_rdbyte_C2 : vec [] 0 0x001 = fails 1 := by decide
theorem test_rdn_C3 : vec [0x10, 0x20, 0x30] 3 0x002 = ok 0 3 3 [0x10, 0x20, 0x30] := by decide
/-- C11: OFF = 10 and LEN = 3, with n = 0. -/
theorem test_rdn_C11 :
    seenAfter (latchedWith [1, 2, 3] 10 0 0x002) =
      some { result := 0, consumed := 0, off := 10, outcnt := 0, err := 0, out := [] } := by decide
theorem test_rdu32_C7 : vec [0x88, 0xC6, 0xFA, 0x01] 0 0x003 = ok 0x01FAC688 4 0 [] := by decide
theorem test_rdu32_C9 : vec [1, 2, 3] 0 0x003 = fails 1 := by decide
theorem test_varint_V5 : vec [0xE5, 0x8E, 0x26] 0 0x004 = ok 624485 3 0 [] := by decide
theorem test_varint_V9 : vec [0xFF, 0xFF, 0xFF, 0xFF, 0x0F] 0 0x004 = ok 0xFFFFFFFF 5 0 [] := by decide
theorem test_bitpack_B9 :
    vec [0x1F, 0x44, 0x14, 0xBC, 0x78] 2 0x055 = ok 0 5 8 [31, 0, 17, 8, 1, 30, 2, 15] := by decide
theorem test_bitpack_B16 : vec [0x88, 0xC6] 2 0x035 = fails 1 := by decide
theorem test_rle_L6 : vec [0xFF] 4 0x036 = ok 0 1 2 [255, 255] := by decide
theorem test_rle_L11 : vec [0x05] 6 0x286 = fails 3 := by decide
theorem test_hybP_H1 :
    vec [0x06, 0, 0, 0, 0x06, 0x05, 0x03, 0x88, 0xC6, 0xFA] 0 0x037 =
      ok 6 10 11 [5, 5, 5, 0, 1, 2, 3, 4, 5, 6, 7] := by decide
theorem test_hybP_H11 :
    vec [0x05, 0, 0, 0, 0x06, 0x05, 0x03, 0x88, 0xC6, 0xFA] 0 0x037 = fails 1 := by decide
theorem test_hybL_H14 :
    vec [0x03, 0xB5, 0x04, 0x01] 4 0x417 = ok 4 4 10 [1, 0, 1, 0, 1, 1, 0, 1, 1, 1] := by decide
/-- H16: the byte after the payload is not read. -/
theorem test_hybL_H16 : vec [0x06, 0x05, 0xAA] 2 0x487 = ok 2 2 3 [5, 5, 5] := by decide
/-- E1, E5: an illegal word, and the priority of its error. -/
theorem test_illegal_E1_E5 : vec [] 0 0x000 = fails 2 ∧ vec [] 0 0xA35 = fails 2 := by decide

/-- A hybrid command in progress: width `bw`, the payload's bytes at BUF[0…], the sub-cursor at `off`. -/
def midway (bytes : List Byte) (bw : BitVec 6) (off : Nat) (vals : List Val) : State :=
  { latchedWith bytes 0 (BitVec.ofNat 32 bytes.length) (encode (.hybL bw)) with
    stream := { sub := { off := off, lim := bytes.length }, vals := vals } }

/-- What a run leaves of the transient state. -/
def streamAfter (i : Instr) (s : State) : Option StreamRegs :=
  match exec i s with
  | .next t => some t.stream
  | .fault _ => none
  | .refused _ => none

/-- The two runs of R126's example, at width 3. -/
theorem test_runRle_R126 :
    streamAfter (.runRle 3) (midway [0x06, 0x05, 0x03, 0x88, 0xC6, 0xFA] 3 1 []) =
      some { sub := { off := 2, lim := 6 }, vals := [5, 5, 5] } := by decide
theorem test_runBp_R126 :
    streamAfter (.runBp 1) (midway [0x06, 0x05, 0x03, 0x88, 0xC6, 0xFA] 3 3 [5, 5, 5]) =
      some { sub := { off := 6, lim := 6 }, vals := [5, 5, 5, 0, 1, 2, 3, 4, 5, 6, 7] } := by decide

/-! ## The host's interface: vectors S1 to S12 and R-1 -/

/-- The state after one host action. -/
def acted (a : HostAction) (s : State) : Option State :=
  match step { s with script := [.host a] } with
  | .next t => some t
  | .fault _ => none
  | .refused _ => none

/-- What a host action answered last. -/
def reply (a : HostAction) (s : State) : Option Reply := (acted a s).bind fun t => t.replies.getLast?

theorem test_S1 : reply (.regRead 0x28 32) fresh = some (.reg 64) := by decide
theorem test_S2 : (acted (.regWrite 0x14 32 1000) fresh).map State.len = some 64 := by decide
theorem test_S3 : reply (.regRead 0x18 32) { fresh with len := 10, off := 4 } = some (.reg 6) := by decide
theorem test_S4 :
    reply (.regRead 0x18 32) { fresh with len := 3, off := 7 } = some (.reg 0) ∧
    (acted (.regWrite 0x10 32 7) { fresh with len := 3 }).map State.off = some 7 := by decide
theorem test_S5 :
    reply (.regRead 0x2C 32) fresh = some (.reg 0) ∧ reply (.regRead 0xFC 32) fresh = some (.reg 0) := by
  decide
theorem test_S6 :
    (acted (.regWrite 0x0C 32 5) fresh).map (fun t => (t.result, t.wob)) = some (0, false) := by decide
theorem test_S7 :
    (acted (.regWrite 0x04 32 9) (latchedWith [] 0 2 0x035)).map (fun t => (t.arg, t.wob)) =
      some (2, true) := by decide
theorem test_S8_S9 :
    (acted (.regWrite 0x08 32 0x2) { fresh with wob := true }).map State.wob = some false ∧
    (acted (.regWrite 0x08 32 0xFFFFFFFD) { fresh with wob := true }).map State.wob = some true := by
  decide
theorem test_S10 :
    reply (.regRead 0x08 32) { fresh with out := [5, 5, 5] } = some (.reg 0x100) := by decide
theorem test_S12 :
    acted (.bufWrite 64 0x11) fresh = some fresh ∧
    reply (.bufRead 64) fresh = some (.byte 0) := by decide
/-- P5 after Exec: OUT_DEPTH = 4, eight values, one ignored write: OUTNE, WOB and BUSY. -/
theorem test_P5_status :
    State.statusWord
      { fresh with params := { bufSize := 64, outDepth := some 4 }, out := List.replicate 8 5, wob := true }
      0 = 0x103 := by decide
/-- R89: a WAIT that reads BUSY = 1 stays, with the unit's move before its next poll; one that reads BUSY = 0
is over. -/
theorem test_WAIT_R89 :
    (match step { latchedWith [5] 0 6 0x086 with script := [.wait 0] } with
      | .next t => some (t.script, t.pend.valid)
      | .fault _ => none
      | .refused _ => none) = some ([.unit, .wait 0], true) ∧
    (match step { fresh with script := [.wait 7] } with
      | .next t => some (t.script, t.replies)
      | .fault _ => none
      | .refused _ => none) = some ([], [.reg 0]) := by decide
/-- An access of another width, and one at an unaligned offset (R56). -/
theorem test_refused_R56 :
    acted (.regRead 0x04 16) fresh = none ∧ acted (.regWrite 0x02 32 1) fresh = none ∧
    acted (.regRead 0x100 32) fresh = none := by decide

/-! ## A table word runs as the first instruction after reset -/

/-- The step of a table word placed after reset gives a next state. -/
def runsFirst (w : Nat) : Bool :=
  match step (State.reset.withFetchWord 32 w) with
  | .next _ => true
  | .fault _ => false
  | .refused _ => false

theorem test_first_commands :
    runsFirst 0x1 = true ∧ runsFirst 0x2 = true ∧ runsFirst 0x3 = true ∧ runsFirst 0x4 = true ∧
    runsFirst 0x5 = true ∧ runsFirst 0x6 = true ∧ runsFirst 0x7 = true ∧ runsFirst 0x407 = true := by
  decide
/-- A run header of each kind, placed in a payload: its values reach OUT (R87, R109, R116). -/
theorem test_first_runs :
    (seenAfter (fresh.withFetchWord 32 0xC8)).map (fun x => (x.err, x.outcnt, x.off)) =
      some (0, 100, 2) ∧
    (seenAfter (fresh.withFetchWord 32 0x9)).map (fun x => (x.err, x.outcnt, x.off)) =
      some (0, 32, 1) := by decide

/-! ## Witnesses: the hypotheses of every obligation that has some, met together, each clause at its edge -/

theorem witness_WordSpellsCommandByMatchAndMask :
    decodeCommand 0x206 = .ok (.rle 32) ∧ (Instr.rle 32).width = some 32 ∧
    decodeCommand 0x7F7 = .ok (.hybL 63) ∧ (Instr.hybL 63).width = some 63 := by decide

/-- OP 0, OP 8, RSV, BW on VARINT, LM on RLE: each illegal. 0x7F7, the greatest legal spelling, is not. -/
theorem witness_IllegalWordRaisesIllegalCommand :
    (∀ w : Word, (latchedWith [] 0 0 w).pend = Pend.ofWord w (latchedWith [] 0 0 w).pend.arg) ∧
    decodeCommand 0x000 = .error .reservedOpcode ∧ decodeCommand 0x008 = .error .reservedOpcode ∧
    decodeCommand 0x805 = .error .reservedBitsSet ∧ decodeCommand 0x014 = .error .widthMustBeZero ∧
    decodeCommand 0x406 = .error .lengthModeMustBeZero ∧ decodeCommand 0x7F7 = .ok (.hybL 63) :=
  ⟨fun _ => rfl, by decide, by decide, by decide, by decide, by decide, by decide⟩

theorem witness_HeaderSelectsItsRun :
    (0xFFFFFFFE : Word).toNat % 2 = 0 ∧ (0xFFFFFFFF : Word).toNat % 2 = 1 ∧
    (Instr.runRle 0).isRun = true ∧ encode (.runRle 0) = 0 := by decide

/-- One byte left; none left, at OFF = LEN and beyond it. -/
theorem witness_RdbyteReadsOneByte :
    1 ≤ (filled [0xA7] 0).remaining ∧ (filled [0xA7] 1).remaining = 0 ∧
    (filled [0xA7] 9).remaining = 0 := by decide

/-- A state of the vectors meets the invariant. -/
theorem latchedWith_inv (bytes : List Byte) (off arg word : Word)
    (h : bytes.length ≤ 64) (hb : ∀ c ∈ (filled bytes off).buf, c.1 < 64) :
    (latchedWith bytes off arg word).Inv where
  params_legal := show Config.Params.legal { bufSize := 64, outDepth := none } = true by decide
  len_le := by
    show (BitVec.ofNat 32 bytes.length).toNat ≤ 64
    simp only [BitVec.toNat_ofNat]
    omega
  buf_wf := Memory.writeAll_wf List.Pairwise.nil 0 bytes
  buf_lt := hb
  out_lt := by simp [latchedWith, filled, fresh, State.resetWith, State.latchCommand]
  err_le := show (0 : BitVec 4).toNat ≤ 3 by decide
  failed_zero := fun h => absurd rfl h
  outcnt_lt := show (0 : BitVec 64).toNat < 2 ^ 63 by decide
  stream_idle := rfl
  latched := fun _ => rfl

/-- n all that remains; n = 0 with OFF above LEN; n one too many; n = 2^31. -/
theorem witness_RdnAppendsTheBytes :
    ((latchedWith [1, 2, 3] 0 3 0x2).pend.arg.toNat ≤ (latchedWith [1, 2, 3] 0 3 0x2).remaining) ∧
    ((latchedWith [1, 2, 3] 10 0 0x2).pend.arg.toNat ≤ (latchedWith [1, 2, 3] 10 0 0x2).remaining) ∧
    ((latchedWith [1, 2, 3] 0 4 0x2).remaining < (latchedWith [1, 2, 3] 0 4 0x2).pend.arg.toNat) ∧
    (latchedWith [1, 2, 3] 0 0x80000000 0x2).Inv ∧
    2 ^ 31 ≤ (latchedWith [1, 2, 3] 0 0x80000000 0x2).pend.arg.toNat :=
  ⟨by decide, by decide, by decide, latchedWith_inv _ _ _ _ (by decide) (by decide), by decide⟩

theorem witness_Rdu32ReadsLittleEndian :
    4 ≤ (filled [5, 0, 0, 0] 0).remaining ∧ (filled [1, 2, 3] 0).remaining < 4 := by decide

/-- Four bytes, all read by both ways; the greatest width. -/
theorem witness_MixedWidthViewsAgree :
    ∃ t s1 s2 s3 s4 : State,
      exec .rdu32 (filled [0x88, 0xC6, 0xFA, 1] 0) = .next t ∧ t.err = 0 ∧
      exec .rdbyte (filled [0x88, 0xC6, 0xFA, 1] 0) = .next s1 ∧ exec .rdbyte s1 = .next s2 ∧
      exec .rdbyte s2 = .next s3 ∧ exec .rdbyte s3 = .next s4 ∧ (32 : BitVec 6).toNat ≤ 32 :=
  ⟨_, _, _, _, _, rfl, rfl, rfl, rfl, rfl, rfl, by decide⟩

/-- In contract with one byte and with five; out of contract by value (V10) and by length (V11). -/
theorem witness_VarintDecodesOneVarint :
    VarintAt (filled [0x7F] 0).buf 0 0 1 1 127 ∧
    VarintAt (filled [0xFF, 0xFF, 0xFF, 0xFF, 0x0F] 0).buf 0 0 5 5 0xFFFFFFFF ∧
    VarintAt (filled [0xFF, 0xFF, 0xFF, 0xFF, 0x10] 0).buf 0 0 5 5 (Config.draw 0 0) ∧
    VarintAt (filled [0x80, 0x80, 0x80, 0x80, 0x80, 0x00] 0).buf 0 0 6 6 (Config.draw 0 0) := by
  refine ⟨⟨by decide, by decide, fun j hj => by omega, by decide, by decide⟩,
    ⟨by decide, by decide, ?_, by decide, (if_pos (by decide)).symm⟩,
    ⟨by decide, by decide, ?_, by decide, (if_neg (by decide)).symm⟩,
    ⟨by decide, by decide, ?_, by decide, (if_neg (by decide)).symm⟩⟩
  · have h : ∀ j < 4,
        (Memory.byte (filled [0xFF, 0xFF, 0xFF, 0xFF, 0x0F] 0).buf (0 + j)).getLsbD 7 = true := by decide
    exact fun j hj => h j (by omega)
  · have h : ∀ j < 4,
        (Memory.byte (filled [0xFF, 0xFF, 0xFF, 0xFF, 0x10] 0).buf (0 + j)).getLsbD 7 = true := by decide
    exact fun j hj => h j (by omega)
  · have h : ∀ j < 5,
        (Memory.byte (filled [0x80, 0x80, 0x80, 0x80, 0x80, 0x00] 0).buf (0 + j)).getLsbD 7 = true := by
      decide
    exact fun j hj => h j (by omega)

/-- V12 and the empty cursor never end; V3 ends at its second byte. -/
theorem witness_VarintFailsOnlyWhenUnterminated :
    (∀ a, (filled [0x80] 0).off.toNat ≤ a → a < (filled [0x80] 0).len.toNat →
      (Memory.byte (filled [0x80] 0).buf a).getLsbD 7 = true) ∧
    (∀ a, (filled [] 0).off.toNat ≤ a → a < (filled [] 0).len.toNat →
      (Memory.byte (filled [] 0).buf a).getLsbD 7 = true) ∧
    ((filled [0x80, 0x01] 0).off.toNat ≤ 1 ∧ 1 < (filled [0x80, 0x01] 0).len.toNat ∧
      (Memory.byte (filled [0x80, 0x01] 0).buf 1).getLsbD 7 = false) := by
  refine ⟨?_, ?_, by decide⟩
  · intro a _ h
    have h : a < 1 := h
    obtain rfl : a = 0 := by omega
    decide
  · intro a _ h
    exact absurd (show a < 0 from h) (by omega)

theorem witness_CanonicalVarintRoundTrip :
    (memRead (filled [0xFF, 0xFF, 0xFF, 0xFF, 0x0F] 0).buf 0 (varintBytes 0xFFFFFFFF).length =
        varintBytes 0xFFFFFFFF ∧
      (varintBytes 0xFFFFFFFF).length ≤ (filled [0xFF, 0xFF, 0xFF, 0xFF, 0x0F] 0).remaining) ∧
    (memRead (filled [0x00, 0x80] 0).buf 0 (varintBytes 0).length = varintBytes 0 ∧
      (varintBytes 0).length ≤ (filled [0x00, 0x80] 0).remaining) := by decide

/-- The last value of a body that just fits (B1's), for the clause about the run. -/
theorem witness_UnpackIsTheBitsAndTheClosedForm :
    ∃ (vals : List Val) (c' : Cursor), 0 < 3 ∧ 3 ≤ 32 ∧
      bitPackRun (filled [0x88, 0xC6, 0xFA] 0).buf { off := 0, lim := 3 } 2 3 = .ok (vals, c') ∧
      7 < 8 * ((2 : Word).toNat / 2) :=
  ⟨_, _, by decide, by decide, rfl, by decide⟩

/-- B1, exactly enough; width 32 with nothing to read; B16, one byte short; B17, width 33. -/
theorem witness_BitpackUnpacksOneRun :
    ((3 : BitVec 6).toNat ≤ 32 ∧
      (latchedWith [0x88, 0xC6, 0xFA] 0 2 0x035).pend.arg.toNat / 2 * (3 : BitVec 6).toNat ≤
        (latchedWith [0x88, 0xC6, 0xFA] 0 2 0x035).remaining) ∧
    ((32 : BitVec 6).toNat ≤ 32 ∧
      (latchedWith [] 0 1 0x205).pend.arg.toNat / 2 * (32 : BitVec 6).toNat ≤
        (latchedWith [] 0 1 0x205).remaining) ∧
    ((3 : BitVec 6).toNat ≤ 32 ∧
      (latchedWith [0x88, 0xC6] 0 2 0x035).remaining <
        (latchedWith [0x88, 0xC6] 0 2 0x035).pend.arg.toNat / 2 * (3 : BitVec 6).toNat) ∧
    32 < (33 : BitVec 6).toNat := by decide

/-- L9, four bytes for width 32; L4, the byte missing; width 33. -/
theorem witness_RleRepeatsTheWholeValue :
    ((32 : BitVec 6).toNat ≤ 32 ∧ ((32 : BitVec 6).toNat + 7) / 8 ≤ (filled [1, 2, 3, 4] 0).remaining) ∧
    ((8 : BitVec 6).toNat ≤ 32 ∧ (filled [] 0).remaining < ((8 : BitVec 6).toNat + 7) / 8) ∧
    32 < (33 : BitVec 6).toNat := by decide

/-- The payload `00 05` at width 8 is an RLE run of count 0 that ends at its end. -/
theorem streamOf_emptyRun (m : Memory) (off : Nat) (h0 : Memory.byte m off = 0) :
    StreamOf m 0 8 off (off + 2) ([] ++ []) := by
  refine StreamOf.run (k := 1) (h := 0) (off := off) (lim := off + 2) (vs := []) ?_ ?_ ?_
  · refine ⟨by decide, by omega, fun j hj => by omega, by simp [h0], ?_⟩
    have : varintSum m off 1 = 0 := by simp [varintSum, h0]
    rw [this]; rfl
  · show off + 1 + 1 ≤ off + 2; omega
  · exact StreamOf.done (off + 2)

/-- A payload that is the byte 0x80 alone is no stream of runs (H8). -/
theorem not_streamOf_80 (m : Memory) (off : Nat) (h : Memory.byte m off = 0x80) :
    ¬ ∃ vals, StreamOf m 0 1 off (off + 1) vals := by
  rintro ⟨vals, hs⟩
  cases hs with
  | run hv hl hrest =>
    obtain ⟨hk, hle, _, hlast, _⟩ := hv
    have hk1 := Nat.le_antisymm (Nat.le_of_add_le_add_left hle) hk
    rw [hk1, Nat.sub_self, Nat.add_zero, h] at hlast
    exact absurd hlast (by decide)

/-- A payload of all the bytes left that is a stream; one byte too many asked; H8; width 33. -/
theorem witness_HybLDecodesThePayload :
    ((8 : BitVec 6).toNat ≤ 32 ∧
      (latchedWith [0, 5] 0 2 0x487).pend.arg.toNat ≤ (latchedWith [0, 5] 0 2 0x487).remaining ∧
      StreamOf (latchedWith [0, 5] 0 2 0x487).buf (latchedWith [0, 5] 0 2 0x487).draws (8 : BitVec 6).toNat
        (latchedWith [0, 5] 0 2 0x487).mainCursor.off
        ((latchedWith [0, 5] 0 2 0x487).mainCursor.off + (latchedWith [0, 5] 0 2 0x487).pend.arg.toNat)
        ([] ++ [])) ∧
    ((8 : BitVec 6).toNat ≤ 32 ∧
      (latchedWith [0, 5] 0 3 0x487).remaining < (latchedWith [0, 5] 0 3 0x487).pend.arg.toNat) ∧
    ((1 : BitVec 6).toNat ≤ 32 ∧
      (latchedWith [0x80] 0 1 0x417).pend.arg.toNat ≤ (latchedWith [0x80] 0 1 0x417).remaining ∧
      ¬ ∃ vals, StreamOf (latchedWith [0x80] 0 1 0x417).buf (latchedWith [0x80] 0 1 0x417).draws
        (1 : BitVec 6).toNat (latchedWith [0x80] 0 1 0x417).mainCursor.off
        ((latchedWith [0x80] 0 1 0x417).mainCursor.off + (latchedWith [0x80] 0 1 0x417).pend.arg.toNat)
        vals) ∧
    32 < (33 : BitVec 6).toNat :=
  ⟨⟨by decide, by decide, streamOf_emptyRun _ 0 (by decide)⟩, by decide,
    ⟨by decide, by decide, not_streamOf_80 _ 0 (by decide)⟩, by decide⟩

/-- As for HYB.L, behind a 4-byte prefix; H9, the prefix truncated; H10, n one too many. -/
theorem witness_HybPDecodesThePayload :
    ((2 : Word).toNat = le (memRead (filled [2, 0, 0, 0, 0, 5] 0).buf 0 4) ∧
      4 + (2 : Word).toNat ≤ (filled [2, 0, 0, 0, 0, 5] 0).remaining ∧
      StreamOf (filled [2, 0, 0, 0, 0, 5] 0).buf (filled [2, 0, 0, 0, 0, 5] 0).draws (8 : BitVec 6).toNat
        ((filled [2, 0, 0, 0, 0, 5] 0).off.toNat + 4)
        ((filled [2, 0, 0, 0, 0, 5] 0).off.toNat + 4 + (2 : Word).toNat) ([] ++ [])) ∧
    ((BitVec.ofNat 32 (le (memRead (filled [6, 0, 0] 0).buf 0 4))).toNat =
        le (memRead (filled [6, 0, 0] 0).buf 0 4) ∧ (filled [6, 0, 0] 0).remaining < 4) ∧
    ((3 : Word).toNat = le (memRead (filled [3, 0, 0, 0, 0, 5] 0).buf 0 4) ∧
      (filled [3, 0, 0, 0, 0, 5] 0).remaining < 4 + (3 : Word).toNat) ∧
    ((1 : Word).toNat = le (memRead (filled [1, 0, 0, 0, 0x80] 0).buf 0 4) ∧
      4 + (1 : Word).toNat ≤ (filled [1, 0, 0, 0, 0x80] 0).remaining ∧
      ¬ ∃ vals, StreamOf (filled [1, 0, 0, 0, 0x80] 0).buf (filled [1, 0, 0, 0, 0x80] 0).draws
        (1 : BitVec 6).toNat ((filled [1, 0, 0, 0, 0x80] 0).off.toNat + 4)
        ((filled [1, 0, 0, 0, 0x80] 0).off.toNat + 4 + (1 : Word).toNat) vals) ∧
    (8 : BitVec 6).toNat ≤ 32 ∧ 32 < (33 : BitVec 6).toNat := by
  refine ⟨⟨by decide, by decide, streamOf_emptyRun _ 4 (by decide)⟩, ⟨?_, by decide⟩,
    by decide, ⟨by decide, by decide, not_streamOf_80 _ 4 (by decide)⟩, by decide, by decide⟩
  have h : (memRead (filled [6, 0, 0] 0).buf 0 4) =
      [6, 0, 0, Memory.byte (filled [6, 0, 0] 0).buf 3] := rfl
  have h3 := (Memory.byte (filled [6, 0, 0] 0).buf 3).isLt
  rw [h]
  simp only [le, BitVec.toNat_ofNat]
  omega

/-- R126's example as a writer makes it, at width 3. -/
theorem witness_WrittenRunsDecodeInOrder :
    (3 : BitVec 6).toNat ≤ 32 ∧
    (∀ r ∈ ([⟨6, [5]⟩, ⟨3, [0x88, 0xC6, 0xFA]⟩] : List Run),
      r.body.length = bodyLength (3 : BitVec 6).toNat r.header) ∧
    (latchedWith [6, 5, 3, 0x88, 0xC6, 0xFA] 0 6 0x437).pend.arg.toNat =
      (payloadBytes [⟨6, [5]⟩, ⟨3, [0x88, 0xC6, 0xFA]⟩]).length ∧
    (payloadBytes [⟨6, [5]⟩, ⟨3, [0x88, 0xC6, 0xFA]⟩]).length ≤
      (latchedWith [6, 5, 3, 0x88, 0xC6, 0xFA] 0 6 0x437).remaining ∧
    memRead (latchedWith [6, 5, 3, 0x88, 0xC6, 0xFA] 0 6 0x437).buf 0
        (payloadBytes [⟨6, [5]⟩, ⟨3, [0x88, 0xC6, 0xFA]⟩]).length =
      payloadBytes [⟨6, [5]⟩, ⟨3, [0x88, 0xC6, 0xFA]⟩] := by decide

/-- The first round of R126's example: header 6, then its RLE run. -/
theorem witness_LoopRoundIsTheRunInstruction :
    ∃ t : State,
      (midway [6, 5, 3, 0x88, 0xC6, 0xFA] 3 0 []).pend.bw.toNat ≤ 32 ∧
      curRem (midway [6, 5, 3, 0x88, 0xC6, 0xFA] 3 0 []).stream.sub ≠ 0 ∧
      varintRead (midway [6, 5, 3, 0x88, 0xC6, 0xFA] 3 0 []).buf 0
          (midway [6, 5, 3, 0x88, 0xC6, 0xFA] 3 0 []).stream.sub = .ok (6, { off := 1, lim := 6 }) ∧
      exec (decodeHeader 6)
          { midway [6, 5, 3, 0x88, 0xC6, 0xFA] 3 0 [] with
            stream := { sub := { off := 1, lim := 6 }, vals := [] } } = .next t :=
  ⟨_, by decide, by decide, by decide, rfl⟩

/-- A payload with rounds to run, one round of it, and an empty payload. -/
theorem witness_LoopNeedsNoMoreRoundsThanBytes :
    ({ sub := { off := 0, lim := 2 }, vals := [] } : StreamRegs).sub.off ≤ 2 ∧
    curRem ({ off := 0, lim := 2 } : Cursor) ≤ 2 ∧ curRem ({ off := 6, lim := 6 } : Cursor) ≤ 0 ∧
    hybridRound (filled [6, 5] 0).buf 0 8 { sub := { off := 0, lim := 2 }, vals := [] } =
      .ok { sub := { off := 2, lim := 2 }, vals := [5, 5, 5] } := by decide

/-- The value byte is the payload's last; it is missing. -/
theorem witness_RunRleAppendsItsValues :
    ((midway [6, 5] 8 1 []).pend.bw.toNat ≤ 32 ∧
      ((midway [6, 5] 8 1 []).pend.bw.toNat + 7) / 8 ≤
        (midway [6, 5] 8 1 []).stream.sub.lim - (midway [6, 5] 8 1 []).stream.sub.off) ∧
    ((midway [6] 32 1 []).pend.bw.toNat ≤ 32 ∧
      (midway [6] 32 1 []).stream.sub.lim - (midway [6] 32 1 []).stream.sub.off <
        ((midway [6] 32 1 []).pend.bw.toNat + 7) / 8) := by decide

/-- The body ends the payload; it is one byte short. -/
theorem witness_RunBpAppendsItsValues :
    ((midway [3, 0x88, 0xC6, 0xFA] 3 1 []).pend.bw.toNat ≤ 32 ∧
      (1 : BitVec 31).toNat * (midway [3, 0x88, 0xC6, 0xFA] 3 1 []).pend.bw.toNat ≤
        (midway [3, 0x88, 0xC6, 0xFA] 3 1 []).stream.sub.lim -
          (midway [3, 0x88, 0xC6, 0xFA] 3 1 []).stream.sub.off) ∧
    ((midway [3, 0x88, 0xC6] 3 1 []).pend.bw.toNat ≤ 32 ∧
      (midway [3, 0x88, 0xC6] 3 1 []).stream.sub.lim - (midway [3, 0x88, 0xC6] 3 1 []).stream.sub.off <
        (1 : BitVec 31).toNat * (midway [3, 0x88, 0xC6] 3 1 []).pend.bw.toNat) := by decide

/-- E7 (33) and 63, over a buffer that also lacks the bytes. -/
theorem witness_WidthAbove32RaisesIllegalParameter :
    ((latchedWith [] 0 0 0x217).pend.valid = true ∧
      decodeCommand 0x217 = .ok (.hybP 33) ∧ (Instr.hybP 33).width = some 33 ∧ 32 < (33 : BitVec 6).toNat) ∧
    (decodeFields (latchedWith [] 0 0 0x217).pend.op (latchedWith [] 0 0 0x217).pend.bw
        (latchedWith [] 0 0 0x217).pend.lm (latchedWith [] 0 0 0x217).pend.rsv = .ok (.hybP 33)) ∧
    ((latchedWith [] 0 0 0x3F5).pend.valid = true ∧
      decodeFields (latchedWith [] 0 0 0x3F5).pend.op (latchedWith [] 0 0 0x3F5).pend.bw
          (latchedWith [] 0 0 0x3F5).pend.lm (latchedWith [] 0 0 0x3F5).pend.rsv = .ok (.bitpack 63) ∧
      (Instr.bitpack 63).width = some 63 ∧ 32 < (63 : BitVec 6).toNat) := by decide

theorem witness_CommandHappensWhollyOrNotAtAll :
    (Instr.hybP 63).isCommand = true ∧ Instr.rdbyte.isCommand = true := by decide

theorem witness_CommandFrame :
    ∃ t : State, (Instr.rle 8).isCommand = true ∧
      exec (.rle 8) (latchedWith [5] 0 6 0x086) = .next t ∧ t.out = [5, 5, 5] :=
  ⟨_, rfl, rfl, by decide⟩

theorem witness_RunFrame :
    ∃ t : State, (Instr.runRle 3).isRun = true ∧
      exec (.runRle 3) (midway [6, 5] 8 1 []) = .next t ∧ t.draws = (midway [6, 5] 8 1 []).draws :=
  ⟨_, rfl, rfl, rfl⟩

theorem witness_OutcntNeverWraps :
    ∃ t : State, (latchedWith [0x80] 0 0 0x004).Inv ∧ Instr.varint.isCommand = true ∧
      exec .varint (latchedWith [0x80] 0 0 0x004) = .next t :=
  ⟨_, latchedWith_inv _ _ _ _ (by decide) (by decide), rfl, rfl⟩

/-- One byte consumed, and none with OFF above LEN. -/
theorem witness_OffAdvancesByConsumed :
    (∃ t : State, (latchedWith [5] 0 6 0x086).Inv ∧ (Instr.rle 8).isCommand = true ∧
      exec (.rle 8) (latchedWith [5] 0 6 0x086) = .next t ∧ t.err = 0 ∧ t.consumed ≠ 0) ∧
    (∃ t : State, (latchedWith [5] 9 0 0x002).Inv ∧ Instr.rdn.isCommand = true ∧
      exec .rdn (latchedWith [5] 9 0 0x002) = .next t ∧ t.err = 0 ∧ t.consumed = 0) :=
  ⟨⟨_, latchedWith_inv _ _ _ _ (by decide) (by decide), rfl, rfl, rfl, by decide⟩,
    ⟨_, latchedWith_inv _ _ _ _ (by decide) (by decide), rfl, rfl, rfl, rfl⟩⟩

/-- Two states that differ in CMD, WOB, the values in OUT and a byte above LEN. -/
theorem witness_CommandReadsOnlyItsWindow :
    ∃ s t s' : State, s ≠ t ∧ Instr.rdbyte.isCommand = true ∧ s.off = t.off ∧ s.len = t.len ∧
      s.pend.arg = t.pend.arg ∧ s.draws = t.draws ∧
      (∀ a, s.off.toNat ≤ a → a < s.len.toNat → Memory.byte s.buf a = Memory.byte t.buf a) ∧
      exec .rdbyte s = .next s' := by
  refine ⟨latchedWith [0xA7] 0 0 0x001,
    { latchedWith [0xA7] 0 0 0x001 with cmd := 9, wob := true, out := [3], buf := [(0, 0xA7), (1, 5)] },
    _, by decide, rfl, rfl, rfl, rfl, rfl, ?_, rfl⟩
  intro a _ h
  have h : a < 1 := h
  obtain rfl : a = 0 := by omega
  decide

/-- A word that decodes, one that is illegal, and nothing latched. -/
theorem witness_UnitStepExecutesTheLatchedCommand :
    ((latchedWith [] 0 0 0x437).pend.valid = true ∧
      decodeFields (latchedWith [] 0 0 0x437).pend.op (latchedWith [] 0 0 0x437).pend.bw
        (latchedWith [] 0 0 0x437).pend.lm (latchedWith [] 0 0 0x437).pend.rsv = .ok (.hybL 3)) ∧
    ((latchedWith [] 0 0 0x008).pend.valid = true ∧
      decodeFields (latchedWith [] 0 0 0x008).pend.op (latchedWith [] 0 0 0x008).pend.bw
        (latchedWith [] 0 0 0x008).pend.lm (latchedWith [] 0 0 0x008).pend.rsv =
      .error .reservedOpcode) ∧
    fresh.pend.valid = false := by decide

/-- BUSY = 0 with OUT at its depth; BUSY = 1 by the latch, and by OUT one above its depth. -/
theorem witness_busy :
    State.busy { fresh with params := { bufSize := 64, outDepth := some 4 }, out := List.replicate 4 5 } =
      false ∧
    State.busy { fresh with params := { bufSize := 64, outDepth := some 4 }, out := List.replicate 5 5 } =
      true ∧
    State.busy (latchedWith [] 0 0 0x001) = true := by decide

theorem witness_AcceptedCmdWriteLatches : State.busy (filled [1, 2] 1) = false := by decide

/-- An address on each side of BUF_SIZE. -/
theorem witness_WritesWhileIdleStore :
    State.busy (filled [1, 2] 1) = false ∧ 63 < (filled [1, 2] 1).params.bufSize ∧
    (filled [1, 2] 1).params.bufSize ≤ 64 := by decide

/-- REM is one of the pairs, and so are the ends of the reserved range. -/
theorem witness_RegisterReadsWhileIdle :
    State.busy (filled [1, 2] 1) = false ∧
    (0x2C ≤ 0x2C ∧ 0x2C ≤ 0xFC ∧ 0x2C % 4 = 0) ∧ (0x2C ≤ 0xFC ∧ 0xFC ≤ 0xFC ∧ 0xFC % 4 = 0) ∧
    (0x18, (1 : Word)) ∈
      [((0x18 : Nat), if (filled [1, 2] 1).off.toNat ≤ (filled [1, 2] 1).len.toNat then
        BitVec.ofNat 32 ((filled [1, 2] 1).len.toNat - (filled [1, 2] 1).off.toNat) else 0)] := by decide

theorem witness_RegisterReadsWhileBusy :
    State.busy (latchedWith [7] 0 0 0x001) = true ∧
    (0x14, (1 : Word)) ∈ [((0x14 : Nat), (latchedWith [7] 0 0 0x001).len)] ∧
    (0x2C ≤ 0xFC ∧ 0xFC ≤ 0xFC ∧ 0xFC % 4 = 0) := by decide

/-- A register write, and a BUF write at BUF_SIZE, the first address beyond BUF. -/
theorem witness_WritesWhileBusyOnlySetWob :
    State.busy (latchedWith [] 0 0 0x001) = true ∧
    (∃ d, HostAction.regWrite 0x14 32 3 = .regWrite 0x00 32 d ∨
      HostAction.regWrite 0x14 32 3 = .regWrite 0x04 32 d ∨
      HostAction.regWrite 0x14 32 3 = .regWrite 0x10 32 d ∨
      HostAction.regWrite 0x14 32 3 = .regWrite 0x14 32 d) ∧
    (∃ x b, HostAction.bufWrite 64 0x11 = .bufWrite x b) ∧
    (latchedWith [] 0 0 0x001).params.bufSize ≤ 64 :=
  ⟨by decide, ⟨3, by decide⟩, ⟨64, 0x11, rfl⟩, by decide⟩

theorem witness_ReadOnlyWritesAreIgnored :
    (0x28 = 0x0C ∨ 0x28 = 0x18 ∨ 0x28 = 0x1C ∨ 0x28 = 0x20 ∨ 0x28 = 0x24 ∨ 0x28 = 0x28 ∨
      (0x2C ≤ 0x28 ∧ 0x28 ≤ 0xFC ∧ 0x28 % 4 = 0)) ∧
    (0xFC = 0x0C ∨ 0xFC = 0x18 ∨ 0xFC = 0x1C ∨ 0xFC = 0x20 ∨ 0xFC = 0x24 ∨ 0xFC = 0x28 ∨
      (0x2C ≤ 0xFC ∧ 0xFC ≤ 0xFC ∧ 0xFC % 4 = 0)) := by decide

/-- OUT with a value; empty with a command latched; empty with none. -/
theorem witness_OutPopTakesTheHeadOrWaits :
    ({ fresh with out := [7] } : State).out = 7 :: [] ∧
    ((latchedWith [] 0 0 0x001).out = [] ∧ (latchedWith [] 0 0 0x001).pend.valid = true) ∧
    (fresh.out = [] ∧ fresh.pend.valid = false) := by decide

/-- A state whose step is refused (R56). -/
theorem witness_OnlyAccessesOutsideTheInterfaceAreRefused :
    step { fresh with script := [.host (.regRead 0x04 16)] } = .refused .registerAccessOutsideInterface :=
  rfl

theorem witness_ArgWrittenLaterDoesNotMatter :
    ∃ t : State, exec (.bitpack 3) (latchedWith [0x88, 0xC6, 0xFA] 0 2 0x035) = .next t :=
  ⟨_, rfl⟩

/-- LEN = 0 with the widths and operands of each clause. -/
theorem witness_EmptyBufferCommands :
    (latchedWith [] 0 2 0x205).len = 0 ∧ (32 : BitVec 6).toNat ≤ 32 ∧ (32 : BitVec 6) ≠ 0 ∧
    2 ≤ (latchedWith [] 0 2 0x205).pend.arg.toNat ∧ (latchedWith [] 0 2 0x205).pend.arg ≠ 0 ∧
    (latchedWith [] 0 0 0x407).len = 0 ∧ (0 : BitVec 6).toNat ≤ 32 ∧
    (latchedWith [] 0 0 0x407).pend.arg = 0 := by decide

theorem witness_StaleLatchFieldsAreNeverRead :
    ∃ t : State, fresh.pend.valid = false ∧
      ({ valid := false, op := 5, bw := 3, lm := 1, rsv := 9, arg := 7 } : Pend).valid = false ∧
      step fresh = .next t :=
  ⟨_, rfl, rfl, rfl⟩

/-- A latched command whose host writes ARG: still latched afterwards. -/
theorem witness_InputStandsWhileLatched :
    ∃ t : State, (latchedWith [] 0 2 0x035).pend.valid = true ∧
      step { latchedWith [] 0 2 0x035 with script := [.host (.regWrite 0x04 32 9)] } = .next t ∧
      t.pend.valid = true :=
  ⟨_, rfl, rfl, rfl⟩

/-- WOB rises (S7) and falls (S8). -/
theorem witness_WobChangesOnlyByItsRules :
    (∃ t : State,
      step { latchedWith [] 0 2 0x035 with script := [.host (.regWrite 0x04 32 9)] } = .next t ∧
      t.wob ≠ (latchedWith [] 0 2 0x035).wob) ∧
    (∃ t : State,
      step { fresh with wob := true, script := [.host (.regWrite 0x08 32 0x2)] } = .next t ∧
      t.wob ≠ true) :=
  ⟨⟨_, rfl, by decide⟩, ⟨_, rfl, by decide⟩⟩

/-- A command advances OFF; the host moves it back. -/
theorem witness_OffMovesBackOnlyByTheHost :
    (∃ t : State, (latchedWith [5] 0 6 0x086).Inv ∧ step (latchedWith [5] 0 6 0x086) = .next t ∧
      t.off = 1) ∧
    (∃ t : State, State.busy { fresh with off := 7, script := [.host (.regWrite 0x10 32 2)] } = false ∧
      step { fresh with off := 7, script := [.host (.regWrite 0x10 32 2)] } = .next t ∧ t.off = 2) :=
  ⟨⟨_, latchedWith_inv _ _ _ _ (by decide) (by decide), rfl, by decide⟩, ⟨_, by decide, rfl, rfl⟩⟩

/-- A command appends, a pop removes. -/
theorem witness_OutIsAQueue :
    (∃ t : State, step (latchedWith [5] 0 6 0x086) = .next t ∧ t.out = [] ++ [5, 5, 5]) ∧
    (∃ t : State, step { fresh with out := [7, 8], script := [.host .outPop] } = .next t ∧
      [7, 8] = 7 :: t.out) :=
  ⟨⟨_, rfl, by decide⟩, ⟨_, rfl, rfl⟩⟩

/-- BUSY = 0, and BUSY = 1 by the latch. -/
theorem witness_WaitPollsUntilBusyReadsZero :
    fresh.busy = false ∧ (latchedWith [5] 0 6 0x086).busy = true := by decide

/-- A command is latched, as behind an accepted CMD write. -/
theorem witness_WaitEndsUnlessBackPressured : (latchedWith [5] 0 6 0x086).pend.valid = true := rfl

/-- P5 after Exec, one value above OUT_DEPTH: a host that reads STATUS, and one that WAITs before its pop. -/
theorem witness_BackPressureHoldsUntilPopped :
    (∃ s : State, s.params.outDepth = some 4 ∧ 4 < s.out.length ∧ accessesInside s.script ∧
      neverDrains s.script ∧ s.script ≠ []) ∧
    (∃ s : State, s.params.outDepth = some 4 ∧ 4 < s.out.length ∧
      s.script = .wait 0 :: [.host .outPop]) := by
  refine ⟨⟨{ fresh with
    params := { bufSize := 64, outDepth := some 4 }
    out := List.replicate 5 5
    script := [.host (.regRead 0x08 32)] }, rfl, by decide, ?_, ?_, by decide⟩,
    ⟨{ fresh with
    params := { bufSize := 64, outDepth := some 4 }
    out := List.replicate 5 5
    script := .wait 0 :: [.host .outPop] }, rfl, by decide, rfl⟩⟩
  · intro t ht
    obtain rfl := List.mem_singleton.1 ht
    decide
  · intro t ht
    obtain rfl := List.mem_singleton.1 ht
    decide

/-- A host that reads STATUS, and a Reset behind a WAIT that polls twice before the unit moves. -/
theorem witness_LatchedCommandIsExecuted :
    (∃ s : State, s.pend.valid = true ∧ accessesInside s.script ∧
      s.script = [.host (.regRead 0x08 32)]) ∧
    (∃ s : State, s.pend.valid = true ∧ accessesInside s.script ∧ s.script = [.wait 1, .reset]) := by
  refine ⟨⟨{ latchedWith [] 0 0 0x001 with script := [.host (.regRead 0x08 32)] }, rfl, ?_, rfl⟩,
    ⟨{ latchedWith [] 0 0 0x001 with script := [.wait 1, .reset] }, rfl, ?_, rfl⟩⟩
  · intro t ht
    obtain rfl := List.mem_singleton.1 ht
    decide
  · intro t ht
    rcases List.mem_cons.1 ht with rfl | ht
    · trivial
    · obtain rfl := List.mem_singleton.1 ht
      trivial

theorem witness_StepKeepsInvariant :
    ∃ t : State, (latchedWith [5] 0 6 0x086).Inv ∧ step (latchedWith [5] 0 6 0x086) = .next t :=
  ⟨_, latchedWith_inv _ _ _ _ (by decide) (by decide), rfl⟩

theorem witness_AssembledLinesWriteTheirWords :
    2 ^ 32 - 1 < 2 ^ 32 ∧ 32 ≤ 32 ∧ assemble (.bitpack (2 ^ 32 - 1) 32) ≠ none ∧
    assemble (.bitpack (2 ^ 32) 32) = none ∧ assemble (.bitpack 0 33) = none := by decide

theorem witness_DirectivesAndPseudoInstructionsExpand :
    2 ^ 32 - 1 < 2 ^ 32 ∧ assemble (.dotOff (2 ^ 32)) = none := by decide

end Sys2Proof.Tests
end

section
/-! SUPPORT. The least sufficient width (00_scope.md R18) and the line LEVELS (30_encoding.md R90). -/

namespace Sys2Proof.Machine

/-- R18: a width suffices for `m` exactly when it is at least `bitWidthOf m`. -/
theorem bitWidthOf_le_iff (m w : Nat) : bitWidthOf m ≤ w ↔ m < 2 ^ w := by
  unfold bitWidthOf
  split
  · next hm => subst hm; simp
  · next hm => exact Nat.log2_lt hm

/-- R18: the least sufficient width is the ceiling of log2(m + 1), which has the same upper bounds. -/
theorem bitWidthOf_eq_clog (m : Nat) : bitWidthOf m = Nat.clog 2 (m + 1) :=
  eq_of_forall_ge_iff fun w =>
    (bitWidthOf_le_iff m w).trans (Nat.clog_le_iff_le_pow Nat.one_lt_two).symm

/-- R88: a width is refused exactly when it is above 32. -/
theorem asmWidth_eq_none_iff (bw : Nat) : asmWidth bw = none ↔ 32 < bw := by
  unfold asmWidth Config.bwMax
  split
  · next hle => simp [Nat.not_lt.2 hle]
  · next hgt => simp [Nat.lt_of_not_le hgt]

/-- R88: the line `HYB.P bw` is refused exactly when its width is. -/
theorem asmHybP_eq_none_iff (bw : Nat) : asmHybP bw = none ↔ 32 < bw := by
  rw [← asmWidth_eq_none_iff]
  unfold asmHybP
  cases asmWidth bw <;> simp [asmPlain]

/-- R90: LEVELS is refused exactly when no legal width suffices for the level. -/
theorem assemble_levels_eq_none_iff (m : Nat) : assemble (.levels m) = none ↔ 2 ^ 32 ≤ m :=
  calc assemble (.levels m) = none
    _ ↔ 32 < bitWidthOf m := asmHybP_eq_none_iff _
    _ ↔ 2 ^ 32 ≤ m := by rw [← Nat.not_le, bitWidthOf_le_iff, Nat.not_lt]

/-- Settles O57: `bitWidthOf m` has exactly the sufficient widths as its upper bounds, and the rest
follows from that. -/
theorem levelsUsesTheLeastWidth : Obligations.LevelsUsesTheLeastWidth := by
  unfold Obligations.LevelsUsesTheLeastWidth
  exact ⟨rfl, fun m =>
    ⟨bitWidthOf_le_iff m, bitWidthOf_eq_clog m, rfl, assemble_levels_eq_none_iff m⟩⟩

end Sys2Proof.Machine
end

section
/-! SUPPORT. A command that succeeds leaves the cursor ahead of where it stood, by no more than the bytes
that remained (40_cursor.md R91, 00_scope.md R13). -/

namespace Sys2Proof.Machine

/-- Where `r` succeeds, its cursor stands `k` bytes ahead of `c`, of the bytes that remained there. -/
def AdvancesFrom (c : Cursor) (r : Except CmdError CmdOk) : Prop :=
  ∀ o, r = .ok o → ∃ k ≤ curRem c, o.cur.off = c.off + k

theorem advancesFrom_error (c : Cursor) (e : CmdError) : AdvancesFrom c (.error e) := nofun

theorem advancesFrom_ok {c : Cursor} {o : CmdOk} {k : Nat} (hk : k ≤ curRem c)
    (ho : o.cur.off = c.off + k) : AdvancesFrom c (.ok o) := by
  rintro _ ⟨⟩
  exact ⟨k, hk, ho⟩

/-- A command that goes on from a cursor `n` bytes ahead advances from where it started. -/
theorem AdvancesFrom.of_skip {c : Cursor} {r : Except CmdError CmdOk} {n : Nat} (hn : n ≤ curRem c)
    (h : AdvancesFrom { off := c.off + n, lim := c.lim } r) : AdvancesFrom c r := by
  intro o ho
  obtain ⟨k, hk, hcur⟩ := h o ho
  simp only [curRem] at hn hk hcur ⊢
  exact ⟨n + k, by omega, by omega⟩

theorem rdbyteOutcome_advances (m : Memory) (c : Cursor) : AdvancesFrom c (rdbyteOutcome m c) := by
  unfold rdbyteOutcome
  rcases Nat.eq_zero_or_pos (curRem c) with hshort | hfits
  · rw [curReadByte_short hshort]; exact advancesFrom_error _ _
  · rw [curReadByte_fits hfits]; exact advancesFrom_ok hfits rfl

theorem rdnOutcome_advances (m : Memory) (c : Cursor) (n : Word) :
    AdvancesFrom c (rdnOutcome m c n) := by
  unfold rdnOutcome
  rcases Nat.lt_or_ge (curRem c) n.toNat with hshort | hfits
  · rw [curReadN_short hshort]; exact advancesFrom_error _ _
  · rw [curReadN_fits hfits]; exact advancesFrom_ok hfits rfl

theorem rdu32Outcome_advances (m : Memory) (c : Cursor) : AdvancesFrom c (rdu32Outcome m c) := by
  unfold rdu32Outcome
  rcases Nat.lt_or_ge (curRem c) 4 with hshort | hfits
  · rw [curReadLE32_short hshort]; exact advancesFrom_error _ _
  · rw [curReadLE32_fits hfits]; exact advancesFrom_ok hfits rfl

theorem varintOutcome_advances (m : Memory) (epoch : Nat) (c : Cursor) :
    AdvancesFrom c (varintOutcome m epoch c) := by
  unfold varintOutcome
  rcases varintRead_cases m epoch c with ⟨k, v, hv, hread⟩ | ⟨_, hread⟩
  · have hle := hv.le
    rw [hread]
    exact advancesFrom_ok (k := k) (by unfold curRem; omega) rfl
  · rw [hread]; exact advancesFrom_error _ _

theorem bitpackOutcome_advances (m : Memory) (c : Cursor) (h : Word) (bw : Nat) :
    AdvancesFrom c (bitpackOutcome m c h bw) := by
  unfold bitpackOutcome
  rcases Nat.lt_or_ge (curRem c) (h.toNat / 2 * bw) with hshort | hfits
  · rw [bitPackRun_short hshort]; exact advancesFrom_error _ _
  · rw [bitPackRun_fits hfits]; exact advancesFrom_ok hfits rfl

theorem rleOutcome_advances (m : Memory) (c : Cursor) (h : Word) (bw : Nat) :
    AdvancesFrom c (rleOutcome m c h bw) := by
  unfold rleOutcome
  rcases Nat.lt_or_ge (curRem c) ((bw + 7) / 8) with hshort | hfits
  · rw [rleRun_short hshort]; exact advancesFrom_error _ _
  · rw [rleRun_fits hfits]; exact advancesFrom_ok hfits rfl

theorem hybridPayload_advances (m : Memory) (epoch bw : Nat) (n : Word) (c : Cursor) :
    AdvancesFrom c (hybridPayload m epoch bw n c) := by
  rcases Nat.lt_or_ge (curRem c) n.toNat with hshort | hfits
  · rw [hybridPayload_short hshort]; exact advancesFrom_error _ _
  · rcases hybridPayload_cases m epoch bw n c hfits with ⟨vs, _, hok⟩ | ⟨_, herr⟩
    · rw [hok]; exact advancesFrom_ok hfits rfl
    · rw [herr]; exact advancesFrom_error _ _

theorem hybPOutcome_advances (m : Memory) (epoch : Nat) (c : Cursor) (bw : Nat) :
    AdvancesFrom c (hybPOutcome m epoch c bw) := by
  unfold hybPOutcome
  rcases Nat.lt_or_ge (curRem c) 4 with hshort | hfits
  · rw [curReadLE32_short hshort]; exact advancesFrom_error _ _
  · rw [curReadLE32_fits hfits]
    exact (hybridPayload_advances m epoch bw _ _).of_skip hfits

theorem withLegalWidth_advances {c : Cursor} (bw : BitVec 6) {k : Nat → Except CmdError CmdOk}
    (h : ∀ w, AdvancesFrom c (k w)) : AdvancesFrom c (withLegalWidth bw k) := by
  rcases Nat.lt_or_ge 32 bw.toNat with hwide | hlegal
  · rw [withLegalWidth_error hwide]; exact advancesFrom_error _ _
  · rw [withLegalWidth_ok hlegal]; exact h _

/-- R91 to R95: no command moves the main cursor backwards or past its limit. -/
theorem commandOutcome_advances (i : Instr) (s : State) :
    AdvancesFrom s.mainCursor (commandOutcome i s) := by
  cases i with
  | rdbyte => exact rdbyteOutcome_advances _ _
  | rdn => exact rdnOutcome_advances _ _ _
  | rdu32 => exact rdu32Outcome_advances _ _
  | varint => exact varintOutcome_advances _ _ _
  | bitpack bw => exact withLegalWidth_advances bw fun w => bitpackOutcome_advances _ _ _ w
  | rle bw => exact withLegalWidth_advances bw fun w => rleOutcome_advances _ _ _ w
  | hybP bw => exact withLegalWidth_advances bw fun w => hybPOutcome_advances _ _ _ w
  | hybL bw => exact withLegalWidth_advances bw fun w => hybridPayload_advances _ _ w _ _
  | runRle _ => exact advancesFrom_error _ _
  | runBp _ => exact advancesFrom_error _ _

end Sys2Proof.Machine
end

section
/-! SUPPORT. What each turn does to OFF (10_state.md R24, R29; 00_scope.md R13). -/

namespace Sys2Proof.Machine

/-- R24, R29: a commit of no more than the remaining bytes does not wrap OFF. -/
theorem State.committed_off_toNat {s : State} {k : Nat} (hk : k ≤ s.remaining) (result : Word)
    (values : List Val) : (s.committed k result values).off.toNat = s.off.toNat + k := by
  have hlen := s.len.isLt
  have hoff := s.off.isLt
  unfold State.remaining at hk
  simp only [State.committed, BitVec.toNat_add, BitVec.toNat_ofNat]
  omega

/-- R136, R137, with how far OFF moves: a command commits at most the remaining bytes, or rolls back. -/
theorem exec_command_cases {i : Instr} {s t : State} (hi : i.isCommand = true)
    (h : exec i s = .next t) :
    (∃ k result values, k ≤ s.remaining ∧ t = s.committed k result values) ∨
      ∃ e, t = s.rollback e := by
  rw [exec_command i s hi] at h
  rcases State.settle_cases h with ⟨o, ho, rfl⟩ | ⟨e, _, rfl⟩
  · obtain ⟨k, hk, hcur⟩ := commandOutcome_advances i s o ho
    rw [State.curRem_mainCursor] at hk
    exact .inl ⟨k, _, _, hk, State.commit_eq_committed s o k hcur⟩
  · exact .inr ⟨e, rfl⟩

/-- R24: a command never moves OFF backwards. -/
theorem exec_command_off_le {i : Instr} {s t : State} (hi : i.isCommand = true)
    (h : exec i s = .next t) : s.off.toNat ≤ t.off.toNat := by
  rcases exec_command_cases hi h with ⟨k, result, values, hk, rfl⟩ | ⟨e, rfl⟩
  · rw [State.committed_off_toNat hk]; exact Nat.le_add_right _ _
  · exact le_rfl

theorem plainCommand_eq_ok {i j : Instr} {bw : BitVec 6} {lm : BitVec 1}
    (h : plainCommand i bw lm = .ok j) : j = i := by
  unfold plainCommand at h
  split at h
  · cases h
  · split at h <;> cases h
    rfl

theorem widthCommand_eq_ok {i j : Instr} {lm : BitVec 1} (h : widthCommand i lm = .ok j) : j = i := by
  unfold widthCommand at h
  split at h <;> cases h
  rfl

/-- R73, R74: the fields of a word spell commands alone, never a run header. -/
theorem decodeFields_isCommand {op : BitVec 4} {bw : BitVec 6} {lm : BitVec 1} {rsv : BitVec 21}
    {i : Instr} (h : decodeFields op bw lm rsv = .ok i) : i.isCommand = true := by
  unfold decodeFields at h
  split at h
  · cases h
  · split at h
    iterate 4 · rw [plainCommand_eq_ok h]; rfl
    iterate 2 · rw [widthCommand_eq_ok h]; rfl
    · split at h <;> cases h <;> rfl
    · cases h

theorem unitTurn_off_le {s t : State} (h : unitTurn s = .next t) : s.off.toNat ≤ t.off.toNat := by
  unfold unitTurn execLatched at h
  split at h
  · split at h
    · next hdec => exact exec_command_off_le (decodeFields_isCommand hdec) h
    · cases h; exact le_rfl
  · cases h; exact le_rfl

theorem regAt_eq_off_iff (off : Nat) : regAt off = .off ↔ off = 0x10 := by
  unfold regAt
  split <;> simp_all

/-- R42: a write held off by BUSY = 1 leaves OFF. -/
@[simp] theorem State.unlessBusy_off (s t : State) :
    (s.unlessBusy t).off = if s.busy = false then t.off else s.off := by
  unfold State.unlessBusy
  cases s.busy <;> rfl

/-- R29, R42: OFF after a register write. -/
theorem regWrite_off (r : Reg) (d : Word) (s : State) :
    (regWrite r d s).off = if r = .off ∧ s.busy = false then d else s.off := by
  cases r <;> simp [regWrite]

@[simp] theorem regRead_off (r : Reg) (s : State) : (regRead r s).off = s.off := by
  obtain ⟨v, n, h⟩ := regRead_cases r s
  rw [h]

@[simp] theorem bufWrite_off (a : Nat) (b : Byte) (s : State) : (bufWrite a b s).off = s.off := by
  rw [bufWrite, State.unlessBusy_off]
  split
  · split <;> rfl
  · rfl

@[simp] theorem bufRead_off (a : Nat) (s : State) : (bufRead a s).off = s.off := rfl

@[simp] theorem outPop_off (s : State) : (outPop s).off = s.off := by
  unfold outPop
  split <;> rfl

@[simp] theorem waitTurn_off (ahead : Nat) (rest : List Turn) (s : State) :
    (waitTurn ahead rest s).off = s.off :=
  regRead_off _ _

theorem regAccessInside_width {off width : Nat} (h : regAccessInside off width = true) :
    width = 32 := by
  simp only [regAccessInside, Bool.and_eq_true, decide_eq_true_eq] at h
  exact h.1.2

/-- R21, R29: a host action changes OFF only as a write of OFF while BUSY = 0. -/
theorem hostAct_off {a : HostAction} {s t : State} (h : hostAct a s = .next t) :
    t.off = s.off ∨ (s.busy = false ∧ a = .regWrite 0x10 32 t.off) := by
  cases a with
  | regRead off width =>
    simp only [hostAct] at h
    split at h <;> cases h
    exact .inl (regRead_off _ _)
  | regWrite off width d =>
    simp only [hostAct] at h
    split at h <;> cases h
    next hinside =>
    rw [regAccessInside_width hinside, regWrite_off]
    split
    · next haccepted =>
      obtain ⟨hreg, hidle⟩ := haccepted
      exact .inr ⟨hidle, by rw [(regAt_eq_off_iff off).1 hreg]⟩
    · exact .inl rfl
  | bufWrite a b => cases h; exact .inl (bufWrite_off a b s)
  | bufRead a => cases h; exact .inl (bufRead_off a s)
  | outPop => cases h; exact .inl (outPop_off s)

/-- R20 to R22: whose turn a step was, and what it then did. -/
theorem step_cases {s t : State} (h : step s = .next t) :
    (∃ rest, unitTurn { s with script := rest } = .next t) ∨
    (∃ ahead rest, s.script = .wait ahead :: rest ∧ t = waitTurn ahead rest s) ∨
    (∃ rest, s.script = .reset :: rest ∧ t = State.resetUnit { s with script := rest }) ∨
    (∃ a rest, s.script = .host a :: rest ∧ hostEnabled a s = true ∧
      hostAct a { s with script := rest } = .next t) := by
  unfold step takeTurn at h
  split at h
  · exact .inl ⟨s.script, h⟩
  · next rest _ => exact .inl ⟨rest, h⟩
  · next ahead rest hs => cases h; exact .inr (.inl ⟨ahead, rest, hs, rfl⟩)
  · next rest hs => cases h; exact .inr (.inr (.inl ⟨rest, hs, rfl⟩))
  · next a rest hs =>
    split at h
    · next hen => exact .inr (.inr (.inr ⟨a, rest, hs, hen, h⟩))
    · exact .inl ⟨s.script, h⟩

/-- Settles O49: the unit moves OFF forward or not at all, a WAIT and a host action other than an accepted
write of OFF leave it. -/
theorem offMovesBackOnlyByTheHost : Obligations.OffMovesBackOnlyByTheHost := by
  unfold Obligations.OffMovesBackOnlyByTheHost
  intro s t _ h
  rcases step_cases h with ⟨rest, hunit⟩ | ⟨ahead, rest, _, rfl⟩ | ⟨rest, hs, _⟩ | ⟨a, rest, hs, _, hact⟩
  · exact .inl (unitTurn_off_le (s := { s with script := rest }) hunit)
  · exact .inl (by rw [waitTurn_off])
  · exact .inr (.inl ⟨rest, hs⟩)
  · rcases hostAct_off hact with heq | ⟨hidle, rfl⟩
    · exact .inl (by rw [heq])
    · exact .inr (.inr ⟨hidle, t.off, rest, hs, rfl⟩)

end Sys2Proof.Machine
end

section
/-! SUPPORT. Decoding depends on the bytes of its window alone (20_memory.md R50, R58): two memories that
agree below the limit from an offset on hold the same varints and the same streams there, and give every
command the same outcome. -/

namespace Sys2Proof.Machine

/-- The two memories hold the same bytes from `off` up to `lim`. -/
def AgreeOn (m m' : Memory) (off lim : Nat) : Prop :=
  ∀ a, off ≤ a → a < lim → Memory.byte m a = Memory.byte m' a

theorem AgreeOn.symm {m m' : Memory} {off lim : Nat} (h : AgreeOn m m' off lim) :
    AgreeOn m' m off lim :=
  fun a hoff hlim => (h a hoff hlim).symm

theorem AgreeOn.mono {m m' : Memory} {off lim off' lim' : Nat} (h : AgreeOn m m' off lim)
    (hoff : off ≤ off') (hlim : lim' ≤ lim) : AgreeOn m m' off' lim' :=
  fun a ho hl => h a (hoff.trans ho) (hl.trans_le hlim)

theorem AgreeOn.memRead_eq {m m' : Memory} {off lim : Nat} (h : AgreeOn m m' off lim) {a n : Nat}
    (ha : off ≤ a) (hn : a + n ≤ lim) : memRead m a n = memRead m' a n :=
  memRead_congr (h.mono ha hn)

theorem AgreeOn.varintSum_eq {m m' : Memory} {off lim k : Nat} (h : AgreeOn m m' off lim)
    (hk : off + k ≤ lim) : varintSum m off k = varintSum m' off k := by
  unfold varintSum
  refine congrArg List.sum (List.map_congr_left fun j hj => ?_)
  have hj := List.mem_range.1 hj
  rw [h (off + j) (by omega) (by omega)]

/-- R50, R100: a varint is one in every memory that agrees on the window. -/
theorem VarintAt.of_agree {m m' : Memory} {epoch off lim k : Nat} {v : Word}
    (hv : VarintAt m epoch off lim k v) (h : AgreeOn m m' off lim) :
    VarintAt m' epoch off lim k v := by
  obtain ⟨hpos, hle, hmore, hlast, hval⟩ := hv
  refine ⟨hpos, hle, fun j hj => ?_, ?_, ?_⟩
  · rw [← h (off + j) (by omega) (by omega)]; exact hmore j hj
  · rw [← h (off + (k - 1)) (by omega) (by omega)]; exact hlast
  · rw [← h.varintSum_eq hle]; exact hval

/-- R50, R121: a payload that is runs back to back is the same runs in every memory that agrees on it. -/
theorem StreamOf.of_agree {m m' : Memory} {epoch bw off lim : Nat} {vs : List Val}
    (hs : StreamOf m epoch bw off lim vs) (h : AgreeOn m m' off lim) :
    StreamOf m' epoch bw off lim vs := by
  induction hs with
  | done lim => exact .done lim
  | run hv hbody _ ih =>
    rw [h.memRead_eq (Nat.le_add_right _ _) hbody]
    exact .run (hv.of_agree h) hbody (ih (h.mono (by omega) le_rfl))

theorem curReadByte_congr {m m' : Memory} {c : Cursor} (h : AgreeOn m m' c.off c.lim) :
    curReadByte m c = curReadByte m' c := by
  rcases Nat.eq_zero_or_pos (curRem c) with hshort | hfits
  · rw [curReadByte_short hshort, curReadByte_short hshort]
  · rw [curReadByte_fits hfits, curReadByte_fits hfits,
      h c.off le_rfl (by unfold curRem at hfits; omega)]

theorem curReadN_congr {m m' : Memory} {c : Cursor} (h : AgreeOn m m' c.off c.lim) (n : Nat) :
    curReadN m c n = curReadN m' c n := by
  rcases Nat.lt_or_ge (curRem c) n with hshort | hfits
  · rw [curReadN_short hshort, curReadN_short hshort]
  · rcases Nat.eq_zero_or_pos n with rfl | hn
    · rfl
    · rw [curReadN_fits hfits, curReadN_fits hfits,
        h.memRead_eq le_rfl (by unfold curRem at hfits; omega)]

theorem curReadLE32_congr {m m' : Memory} {c : Cursor} (h : AgreeOn m m' c.off c.lim) :
    curReadLE32 m c = curReadLE32 m' c := by
  unfold curReadLE32
  rw [curReadN_congr h]

theorem varintRead_congr {m m' : Memory} (epoch : Nat) {c : Cursor} (h : AgreeOn m m' c.off c.lim) :
    varintRead m epoch c = varintRead m' epoch c := by
  rcases varintRead_cases m epoch c with ⟨k, v, hv, hread⟩ | ⟨hnone, hread⟩
  · rw [hread, varintRead_of_varintAt (hv.of_agree h)]
  · rw [hread, varintRead_unterminated fun a hoff hlim => by
      rw [← h a hoff hlim]; exact hnone a hoff hlim]

theorem bitPackRun_congr {m m' : Memory} {c : Cursor} (h : AgreeOn m m' c.off c.lim) (hdr : Word)
    (bw : Nat) : bitPackRun m c hdr bw = bitPackRun m' c hdr bw := by
  simp only [bitPackRun, curReadN_congr h]

theorem rleRun_congr {m m' : Memory} {c : Cursor} (h : AgreeOn m m' c.off c.lim) (hdr : Word)
    (bw : Nat) : rleRun m c hdr bw = rleRun m' c hdr bw := by
  simp only [rleRun, curReadN_congr h]

/-- R50, R121: both memories hold the payload's runs, or neither does. -/
theorem hybridPayload_congr {m m' : Memory} (epoch bw : Nat) (n : Word) {c : Cursor}
    (h : AgreeOn m m' c.off c.lim) :
    hybridPayload m epoch bw n c = hybridPayload m' epoch bw n c := by
  rcases Nat.lt_or_ge (curRem c) n.toNat with hshort | hfits
  · rw [hybridPayload_short hshort, hybridPayload_short hshort]
  have hpay : AgreeOn m m' c.off (c.off + n.toNat) := fun a hoff hlim =>
    h a hoff (by unfold curRem at hfits; omega)
  rcases hybridPayload_cases m epoch bw n c hfits with ⟨vs, hs, hok⟩ | ⟨hs, herr⟩ <;>
    rcases hybridPayload_cases m' epoch bw n c hfits with ⟨vs', hs', hok'⟩ | ⟨hs', herr'⟩
  · rw [hok, hok', (hs.of_agree hpay).unique hs']
  · exact absurd ⟨vs, hs.of_agree hpay⟩ hs'
  · exact absurd ⟨vs', hs'.of_agree hpay.symm⟩ hs
  · rw [herr, herr']

theorem hybPOutcome_congr {m m' : Memory} (epoch : Nat) {c : Cursor} (h : AgreeOn m m' c.off c.lim)
    (bw : Nat) : hybPOutcome m epoch c bw = hybPOutcome m' epoch c bw := by
  unfold hybPOutcome
  rw [← curReadLE32_congr h]
  rcases Nat.lt_or_ge (curRem c) 4 with hshort | hfits
  · rw [curReadLE32_short hshort]
  · rw [curReadLE32_fits hfits]
    exact hybridPayload_congr epoch bw _ (h.mono (Nat.le_add_right _ _) le_rfl)

/-- R13: the main cursor is a function of OFF and LEN. -/
theorem State.mainCursor_congr {s t : State} (hoff : s.off = t.off) (hlen : s.len = t.len) :
    s.mainCursor = t.mainCursor := by
  unfold State.mainCursor
  rw [hoff, hlen]

/-- R50, R58: the outcome of a command is a function of OFF, LEN, the bytes between them, the latched
operand and the draws. -/
theorem commandOutcome_congr (i : Instr) {s t : State} (hoff : s.off = t.off) (hlen : s.len = t.len)
    (harg : s.operand = t.operand) (hdraws : s.draws = t.draws)
    (hbuf : AgreeOn s.buf t.buf s.off.toNat s.len.toNat) :
    commandOutcome i s = commandOutcome i t := by
  have hwin : AgreeOn s.buf t.buf s.mainCursor.off s.mainCursor.lim := fun a ho hl => by
    rw [State.mainCursor_off] at ho
    rw [State.mainCursor_lim] at hl
    exact hbuf a (by omega) hl
  unfold commandOutcome
  rw [← State.mainCursor_congr hoff hlen, ← harg, ← hdraws]
  cases i with
  | rdbyte => simp only [rdbyteOutcome, curReadByte_congr hwin]
  | rdn => simp only [rdnOutcome, curReadN_congr hwin]
  | rdu32 => simp only [rdu32Outcome, curReadLE32_congr hwin]
  | varint => simp only [varintOutcome, varintRead_congr s.draws hwin]
  | bitpack bw =>
    refine congrArg (withLegalWidth bw) (funext fun w => ?_)
    simp only [bitpackOutcome, bitPackRun_congr hwin]
  | rle bw =>
    refine congrArg (withLegalWidth bw) (funext fun w => ?_)
    simp only [rleOutcome, rleRun_congr hwin]
  | hybP bw => exact congrArg (withLegalWidth bw) (funext (hybPOutcome_congr s.draws hwin))
  | hybL bw =>
    exact congrArg (withLegalWidth bw) (funext fun w => hybridPayload_congr s.draws w s.operand hwin)
  | runRle _ => rfl
  | runBp _ => rfl

/-- Settles O30: the two states settle one outcome, from one main cursor. -/
theorem commandReadsOnlyItsWindow : Obligations.CommandReadsOnlyItsWindow := by
  unfold Obligations.CommandReadsOnlyItsWindow
  intro i s t s' hi hoff hlen harg hdraws hbuf h
  have houtcome := commandOutcome_congr i hoff hlen harg hdraws hbuf
  rw [exec_command i s hi] at h
  rw [exec_command i t hi, ← houtcome]
  rcases State.settle_cases h with ⟨o, ho, rfl⟩ | ⟨e, he, rfl⟩
  · refine ⟨t.commit o, o.values, by rw [ho]; rfl, rfl, ?_, rfl, rfl, ?_, rfl, rfl⟩
    · simp only [State.commit_consumed, State.mainCursor_congr hoff hlen]
    · simp only [State.commit_off, State.mainCursor_congr hoff hlen, hoff]
  · exact ⟨t.rollback e, [], by rw [he]; rfl, rfl, rfl, rfl, rfl, hoff.symm,
      (List.append_nil _).symm, (List.append_nil _).symm⟩

end Sys2Proof.Machine
end

section
/-! SUPPORT. What RDBYTE, RDU32 and RLE leave where their bytes fit, and how the views of different widths
agree over the same bytes (20_memory.md R51, R54). -/

namespace Sys2Proof.Machine

/-- R136: a command that succeeds with the cursor `k` bytes ahead commits its result and values. -/
theorem exec_of_commandOutcome_ok {i : Instr} {s : State} {k lim : Nat} {result : Word}
    {values : List Val} (hi : i.isCommand = true)
    (ho : commandOutcome i s = .ok ⟨result, values, ⟨s.mainCursor.off + k, lim⟩⟩) :
    exec i s = .next (s.committed k result values) := by
  rw [exec_command i s hi, ho, State.settle_ok, State.commit_eq_committed s _ k rfl]

/-- R96: RDBYTE with a byte left. -/
theorem exec_rdbyte_fits {s : State} (h : 1 ≤ s.remaining) :
    exec .rdbyte s =
      .next (s.committed 1 ((Memory.byte s.buf s.off.toNat).setWidth 32) []) := by
  have hrem : 0 < curRem s.mainCursor := by rw [State.curRem_mainCursor]; exact h
  rw [← State.mainCursor_off_of_rem hrem]
  refine exec_of_commandOutcome_ok (lim := s.mainCursor.lim) rfl ?_
  simp only [commandOutcome, rdbyteOutcome, curReadByte_fits hrem]

/-- R98: RDU32 with four bytes left. -/
theorem exec_rdu32_fits {s : State} (h : 4 ≤ s.remaining) :
    exec .rdu32 s =
      .next (s.committed 4 (BitVec.ofNat 32 (le (memRead s.buf s.off.toNat 4))) []) := by
  have hrem : 4 ≤ curRem s.mainCursor := by rw [State.curRem_mainCursor]; exact h
  rw [← State.memRead_mainCursor s hrem]
  refine exec_of_commandOutcome_ok (lim := s.mainCursor.lim) rfl ?_
  simp only [commandOutcome, rdu32Outcome, curReadLE32_fits hrem]

/-- R98: RDU32 with fewer than four bytes left. -/
theorem exec_rdu32_short {s : State} (h : s.remaining < 4) :
    exec .rdu32 s = .next (s.rollback .truncatedInput) := by
  have hrem : curRem s.mainCursor < 4 := by rw [State.curRem_mainCursor]; exact h
  rw [exec_command _ s rfl]
  simp only [commandOutcome, rdu32Outcome, curReadLE32_short hrem, State.settle_error]

/-- R114, R117: RLE of a legal width whose value fits. -/
theorem exec_rle_fits {s : State} {bw : BitVec 6} (hbw : bw.toNat ≤ 32)
    (h : (bw.toNat + 7) / 8 ≤ s.remaining) :
    exec (.rle bw) s =
      .next (s.committed ((bw.toNat + 7) / 8) 0
        (List.replicate (s.operand.toNat / 2)
          (BitVec.ofNat 64 (le (memRead s.buf s.off.toNat ((bw.toNat + 7) / 8)))))) := by
  have hrem : (bw.toNat + 7) / 8 ≤ curRem s.mainCursor := by rw [State.curRem_mainCursor]; exact h
  rw [← State.memRead_mainCursor s hrem]
  refine exec_of_commandOutcome_ok (lim := s.mainCursor.lim) rfl ?_
  simp only [commandOutcome, withLegalWidth_ok hbw, rleOutcome, rleRun_fits hrem]

/-- R98: RDU32 reports no error only where four bytes remain. -/
theorem four_le_remaining_of_rdu32_ok {s t : State} (h : exec .rdu32 s = .next t) (herr : t.err = 0) :
    4 ≤ s.remaining := by
  by_contra hshort
  rw [exec_rdu32_short (Nat.lt_of_not_le hshort)] at h
  cases h
  have hcode : CmdError.truncatedInput.code = 0 := herr
  exact absurd hcode (by decide)

/-- R96: one RDBYTE of a sequence, with what the next one needs. -/
theorem rdbyte_reads_next {s t : State} (hrem : 1 ≤ s.remaining) (h : exec .rdbyte s = .next t) :
    t.err = 0 ∧ t.buf = s.buf ∧ t.off.toNat = s.off.toNat + 1 ∧ t.remaining = s.remaining - 1 ∧
      t.result.toNat = (Memory.byte s.buf s.off.toNat).toNat := by
  rw [exec_rdbyte_fits hrem] at h
  cases h
  have hoff := State.committed_off_toNat hrem ((Memory.byte s.buf s.off.toNat).setWidth 32) []
  refine ⟨rfl, rfl, hoff, ?_, BitVec.toNat_setWidth_of_le (by decide)⟩
  unfold State.remaining at hrem ⊢
  rw [hoff]
  exact (Nat.sub_sub _ _ _).symm

theorem le_memRead_lt (m : Memory) (a n : Nat) : le (memRead m a n) < 256 ^ n := by
  simpa using le_lt (memRead m a n)

/-- R9: at most four bytes make a number of 32 bits. -/
theorem toNat_ofNat_le_memRead (m : Memory) (a : Nat) {n w : Nat} (hn : n ≤ 4) (hw : 32 ≤ w) :
    (BitVec.ofNat w (le (memRead m a n))).toNat = le (memRead m a n) := by
  refine (BitVec.toNat_ofNat _ _).trans (Nat.mod_eq_of_lt ?_)
  calc le (memRead m a n) < 256 ^ n := le_memRead_lt m a n
    _ ≤ 256 ^ 4 := Nat.pow_le_pow_right (by decide) hn
    _ = 2 ^ 32 := by norm_num only
    _ ≤ 2 ^ w := Nat.pow_le_pow_right (by decide) hw

/-- R51, R54: the little-endian value of the first `n` bytes is the longer one's low `8n` bits. -/
theorem le_memRead_eq_mod (m : Memory) (a : Nat) {n k : Nat} (h : n ≤ k) :
    le (memRead m a n) = le (memRead m a k) % 2 ^ (8 * n) := by
  obtain ⟨d, rfl⟩ := Nat.exists_eq_add_of_le h
  rw [memRead_add, le_append, memRead_length, pow_mul]
  norm_num only
  rw [Nat.add_mul_mod_self_left, Nat.mod_eq_of_lt (le_memRead_lt m a n)]

/-- R54: four RDBYTEs in a row give the four bytes at OFF, in address order. -/
theorem four_rdbytes {s s1 s2 s3 s4 : State} (hrem : 4 ≤ s.remaining)
    (h1 : exec .rdbyte s = .next s1) (h2 : exec .rdbyte s1 = .next s2)
    (h3 : exec .rdbyte s2 = .next s3) (h4 : exec .rdbyte s3 = .next s4) :
    s4.err = 0 ∧ s4.off.toNat = s.off.toNat + 4 ∧
      [s1.result.toNat, s2.result.toNat, s3.result.toNat, s4.result.toNat] =
        (memRead s.buf s.off.toNat 4).map BitVec.toNat := by
  obtain ⟨-, hbuf1, hoff1, hrem1, hres1⟩ := rdbyte_reads_next (by omega) h1
  obtain ⟨-, hbuf2, hoff2, hrem2, hres2⟩ := rdbyte_reads_next (by omega) h2
  obtain ⟨-, hbuf3, hoff3, hrem3, hres3⟩ := rdbyte_reads_next (by omega) h3
  obtain ⟨herr4, -, hoff4, -, hres4⟩ := rdbyte_reads_next (by omega) h4
  refine ⟨herr4, by omega, ?_⟩
  rw [hres1, hres2, hres3, hres4, hbuf3, hbuf2, hbuf1, hoff3, hoff2, hoff1]
  rfl

/-- Settles O9: all three views read the bytes at OFF, and the low bytes of a little-endian value are its
residue. -/
theorem mixedWidthViewsAgree : Obligations.MixedWidthViewsAgree := by
  unfold Obligations.MixedWidthViewsAgree
  intro s t s1 s2 s3 s4 bw ht herr h1 h2 h3 h4 hbw
  have hrem := four_le_remaining_of_rdu32_ok ht herr
  rw [exec_rdu32_fits hrem] at ht
  cases ht
  have hword := toNat_ofNat_le_memRead s.buf s.off.toNat (n := 4) le_rfl (le_refl 32)
  obtain ⟨herr4, hoff4, hbytes⟩ := four_rdbytes hrem h1 h2 h3 h4
  have hwidth : (bw.toNat + 7) / 8 ≤ 4 := by omega
  refine ⟨herr4, BitVec.eq_of_toNat_eq ?_, hword, hbytes, _,
    exec_rle_fits hbw (hwidth.trans hrem), rfl, fun v hv => ?_⟩
  · rw [hoff4, State.committed_off_toNat hrem]
  · have hvalue : v.toNat = le (memRead s.buf s.off.toNat ((bw.toNat + 7) / 8)) := by
      simp only [State.committed, List.drop_left] at hv
      rw [List.eq_of_mem_replicate hv]
      exact toNat_ofNat_le_memRead _ _ hwidth (by decide)
    refine ⟨hvalue, ?_⟩
    calc v.toNat = le (memRead s.buf s.off.toNat ((bw.toNat + 7) / 8)) := hvalue
      _ = le (memRead s.buf s.off.toNat 4) % 2 ^ (8 * ((bw.toNat + 7) / 8)) :=
        le_memRead_eq_mod s.buf s.off.toNat hwidth
      _ = _ := congrArg (· % _) hword.symm

end Sys2Proof.Machine
end

section
/-! SUPPORT. A run header and the run it selects are read off each other (30_encoding.md R82, 44_hybrid.md
R122). -/

namespace Sys2Proof.Machine

theorem decodeHeader_of_even {h : Word} (he : h.toNat % 2 = 0) :
    decodeHeader h = .runRle (BitVec.ofNat 31 (h.toNat / 2)) := by
  have hbit : ¬ h.getLsbD 0 = true := by rw [getLsbD_zero_iff]; omega
  rw [decodeHeader, if_neg hbit, ← extract_high_toNat, BitVec.ofNat_toNat, BitVec.setWidth_eq]

theorem decodeHeader_of_odd {h : Word} (ho : h.toNat % 2 = 1) :
    decodeHeader h = .runBp (BitVec.ofNat 31 (h.toNat / 2)) := by
  rw [decodeHeader, if_pos ((getLsbD_zero_iff h).2 ho), ← extract_high_toNat, BitVec.ofNat_toNat,
    BitVec.setWidth_eq]

/-- R82: no header is refused, and none selects a command. -/
theorem decodeHeader_isRun (h : Word) : (decodeHeader h).isRun = true := by
  unfold decodeHeader
  split <;> rfl

/-- R82: a run's word is the header that selected it. -/
@[simp] theorem encode_decodeHeader (h : Word) : encode (decodeHeader h) = h := by
  unfold decodeHeader
  split
  · next hbit => exact encode_runBp_extract hbit
  · next hbit => exact encode_runRle_extract (Bool.eq_false_of_not_eq_true hbit)

/-- R82: every run is read back from its header. -/
theorem decodeHeader_encode {i : Instr} (hi : i.isRun = true) : decodeHeader (encode i) = i := by
  cases i with
  | runRle c =>
    have hw := encode_runRle_toNat c
    rw [decodeHeader_of_even (by omega), hw, Nat.mul_div_cancel_left _ Nat.two_pos]
    simp
  | runBp g =>
    have hw := encode_runBp_toNat g
    rw [decodeHeader_of_odd (by omega), show (encode (.runBp g)).toNat / 2 = g.toNat by omega]
    simp
  | _ => cases hi

theorem decodeHeader_eq_iff (h : Word) (i : Instr) :
    decodeHeader h = i ↔ i.isRun = true ∧ encode i = h := by
  constructor
  · rintro rfl
    exact ⟨decodeHeader_isRun h, encode_decodeHeader h⟩
  · rintro ⟨hi, rfl⟩
    exact decodeHeader_encode hi

theorem exists_decodeHeader_eq_runRle_iff (h : Word) :
    (∃ c, decodeHeader h = .runRle c) ↔ h.toNat % 2 = 0 := by
  refine ⟨fun ⟨c, hc⟩ => ?_, fun he => ⟨_, decodeHeader_of_even he⟩⟩
  rw [← encode_decodeHeader h, hc, encode_runRle_toNat]
  omega

theorem exists_decodeHeader_eq_runBp_iff (h : Word) :
    (∃ g, decodeHeader h = .runBp g) ↔ h.toNat % 2 = 1 := by
  refine ⟨fun ⟨g, hg⟩ => ?_, fun ho => ⟨_, decodeHeader_of_odd ho⟩⟩
  rw [← encode_decodeHeader h, hg, encode_runBp_toNat]
  omega

/-- The mask 1 of both run kinds keeps the parity. -/
theorem and_one_toNat (h : Word) : (h &&& 1).toNat = h.toNat % 2 := by
  rw [BitVec.toNat_and]
  exact Nat.and_one_is_mod _

/-- Settles O4: bit 0 is the parity of the header, and the count is its half. -/
theorem headerSelectsItsRun : Obligations.HeaderSelectsItsRun := by
  unfold Obligations.HeaderSelectsItsRun
  intro h
  refine ⟨decodeHeader_of_even, decodeHeader_of_odd, ?_, ?_, decodeHeader_eq_iff h⟩
  · rw [exists_decodeHeader_eq_runRle_iff, ← and_one_toNat, ← BitVec.toNat_inj]; rfl
  · rw [exists_decodeHeader_eq_runBp_iff, ← and_one_toNat, ← BitVec.toNat_inj]; rfl

end Sys2Proof.Machine
end

section
/-! SUPPORT. Which command words are refused, and what the unit's move does with a latched word
(30_encoding.md R76, R77; 10_state.md R22). -/

namespace Sys2Proof.Machine

/-- R22: a latched word that spells a command is that command's execution. -/
theorem unitTurn_of_decodes {s : State} {i : Instr} (hv : s.pend.valid = true)
    (hd : decodeFields s.pend.op s.pend.bw s.pend.lm s.pend.rsv = .ok i) :
    unitTurn s = exec i s := by
  simp only [unitTurn, execLatched, hv, hd, if_true]

/-- R76: a latched word that spells none rolls back. -/
theorem unitTurn_of_illegal {s : State} {e : DecodeError} (hv : s.pend.valid = true)
    (hd : decodeFields s.pend.op s.pend.bw s.pend.lm s.pend.rsv = .error e) :
    unitTurn s = .next (s.rolledBack 2) := by
  simp only [unitTurn, execLatched, hv, hd, if_true]
  rfl

theorem widthCommand_illegal_iff (i : Instr) (lm : BitVec 1) :
    (∃ e, widthCommand i lm = .error e) ↔ lm ≠ 0 := by
  unfold widthCommand
  split
  · next hlm => exact iff_of_true ⟨_, rfl⟩ hlm
  · next hlm => exact iff_of_false nofun hlm

theorem plainCommand_illegal_iff (i : Instr) (bw : BitVec 6) (lm : BitVec 1) :
    (∃ e, plainCommand i bw lm = .error e) ↔ bw ≠ 0 ∨ lm ≠ 0 := by
  by_cases hbw : bw = 0
  · have hlm : plainCommand i bw lm = widthCommand i lm := if_neg (not_not_intro hbw)
    rw [hlm, widthCommand_illegal_iff, hbw]
    simp
  · exact iff_of_true ⟨_, if_pos hbw⟩ (.inl hbw)

/-- R76: the fields of an illegal word. -/
theorem decodeFields_illegal_iff (op : BitVec 4) (bw : BitVec 6) (lm : BitVec 1) (rsv : BitVec 21) :
    (∃ e, decodeFields op bw lm rsv = .error e) ↔
      op.toNat = 0 ∨ 8 ≤ op.toNat ∨ rsv ≠ 0 ∨ (bw ≠ 0 ∧ 1 ≤ op.toNat ∧ op.toNat ≤ 4) ∨
        (lm ≠ 0 ∧ op.toNat ≠ 7) := by
  unfold decodeFields
  by_cases hrsv : rsv = 0
  · rw [if_neg (not_not_intro hrsv)]
    split
    iterate 4 · next hop => rw [plainCommand_illegal_iff]; simp [hop, hrsv]
    iterate 2 · next hop => rw [widthCommand_illegal_iff]; simp [hop, hrsv]
    · next hop => split <;> simp [hop, hrsv]
    · next =>
      have hop : op.toNat = 0 ∨ 8 ≤ op.toNat := by grind
      exact iff_of_true ⟨_, rfl⟩ (hop.imp_right .inl)
  · rw [if_pos hrsv]
    exact iff_of_true ⟨_, rfl⟩ (.inr (.inr (.inl hrsv)))

/-- R76, with the fields read off the word as a number. -/
theorem decodeCommand_illegal_iff (w : Word) :
    (∃ e, decodeCommand w = .error e) ↔
      w.toNat % 16 = 0 ∨ 8 ≤ w.toNat % 16 ∨ w.toNat / 2048 ≠ 0 ∨
        (w.toNat / 16 % 64 ≠ 0 ∧ 1 ≤ w.toNat % 16 ∧ w.toNat % 16 ≤ 4) ∨
        (w.toNat / 1024 % 2 ≠ 0 ∧ w.toNat % 16 ≠ 7) := by
  rw [decodeCommand, decodeFields_illegal_iff, ← opField_toNat, ← bwField_toNat, ← lmField_toNat,
    ← rsvField_toNat]
  simp only [ne_eq, ← BitVec.toNat_inj, BitVec.ofNat_eq_ofNat, BitVec.toNat_ofNat, Nat.zero_mod]

/-- Settles O3: the latch holds the word's fields, so the unit refuses what `decodeCommand` refuses, and it
looks at nothing but the latch for that. -/
theorem illegalWordRaisesIllegalCommand : Obligations.IllegalWordRaisesIllegalCommand := by
  unfold Obligations.IllegalWordRaisesIllegalCommand
  intro w s hlatch
  refine ⟨(decodeCommand_illegal_iff w).symm, fun ⟨e, he⟩ => ?_⟩
  have hv : s.pend.valid = true := by rw [hlatch]; rfl
  have hd : decodeFields s.pend.op s.pend.bw s.pend.lm s.pend.rsv = .error e := by
    rw [hlatch]; exact he
  exact ⟨unitTurn_of_illegal hv hd, fun m => unitTurn_of_illegal (s := { s with buf := m }) hv hd⟩

/-- R77, R132: a command with a width above 32 rolls back; a run header carries no width of its own. -/
theorem exec_width_above {i : Instr} {bw : BitVec 6} (s : State) (hi : i.width = some bw)
    (hbw : 32 < bw.toNat) : exec i s = .next (s.rolledBack 3) := by
  have hout : i.isCommand = true ∧ commandOutcome i s = .error .illegalParameter := by
    cases i with
    | bitpack _ | rle _ | hybP _ | hybL _ => cases hi; exact ⟨rfl, withLegalWidth_error hbw _⟩
    | _ => cases hi
  obtain ⟨hcmd, herr⟩ := hout
  rw [exec_command i s hcmd, herr, State.settle_error]
  rfl

/-- Settles O24: the width is tested before the command's pseudocode, so BUF plays no part. -/
theorem widthAbove32RaisesIllegalParameter : Obligations.WidthAbove32RaisesIllegalParameter := by
  unfold Obligations.WidthAbove32RaisesIllegalParameter
  intro s m i bw hv hd hi hbw
  constructor
  · rw [unitTurn_of_decodes hv hd, exec_width_above s hi hbw]
  · rw [unitTurn_of_decodes (s := { s with buf := m }) hv hd, exec_width_above _ hi hbw]

end Sys2Proof.Machine
end

section
/-! SUPPORT. VARINT in the claims' terms (41_varint.md R103, R104), and its reading of the canonical varint
bytes (30_encoding.md R79, R87). -/

namespace Sys2Proof.Machine

/-! ### The command -/

/-- R104: VARINT over a varint at OFF. -/
theorem exec_varint_of_varintAt {s : State} {k : Nat} {v : Word}
    (h : VarintAt s.buf s.draws s.off.toNat s.len.toNat k v) :
    exec .varint s = .next (s.committed k v []) := by
  have hpos := h.pos
  have hle := h.le
  have hoff : s.mainCursor.off = s.off.toNat := by rw [State.mainCursor_off]; omega
  rw [← hoff, ← s.mainCursor_lim] at h
  refine exec_of_commandOutcome_ok (lim := s.mainCursor.lim) rfl ?_
  simp only [commandOutcome, varintOutcome, varintRead_of_varintAt h]

/-- R103: VARINT where no byte from OFF up to LEN has bit 7 clear, so also where OFF is not below LEN. -/
theorem exec_varint_unterminated {s : State}
    (h : ∀ a, s.off.toNat ≤ a → a < s.len.toNat → (Memory.byte s.buf a).getLsbD 7 = true) :
    exec .varint s = .next (s.rolledBack 1) := by
  have hcur : ∀ a, s.mainCursor.off ≤ a → a < s.mainCursor.lim →
      (Memory.byte s.buf a).getLsbD 7 = true := fun a ho hl => by
    rw [State.mainCursor_off] at ho
    rw [State.mainCursor_lim] at hl
    exact h a (by omega) hl
  rw [exec_command _ s rfl]
  simp only [commandOutcome, varintOutcome, varintRead_unterminated hcur, State.settle_error]
  rfl

/-- R103: `varintRead` raises `TruncatedInput` exactly where the cursor holds no terminating byte. -/
theorem varintRead_eq_error_iff (m : Memory) (epoch : Nat) (c : Cursor) :
    varintRead m epoch c = .error .truncatedInput ↔
      ∀ a, c.off ≤ a → a < c.lim → (Memory.byte m a).getLsbD 7 = true := by
  refine ⟨fun herr => ?_, varintRead_unterminated⟩
  rcases varintRead_cases m epoch c with ⟨k, v, _, hok⟩ | ⟨hnone, _⟩
  · rw [hok] at herr; cases herr
  · exact hnone

/-- Settles O11: a terminating byte ends a varint at or before it, and without one the read fails. -/
theorem varintFailsOnlyWhenUnterminated : Obligations.VarintFailsOnlyWhenUnterminated := by
  unfold Obligations.VarintFailsOnlyWhenUnterminated
  refine ⟨fun m epoch c => ⟨(varintRead_eq_error_iff m epoch c).symm, fun a ho hl hend => ?_⟩,
    fun s => ⟨exec_varint_unterminated, fun a ho hl hend => ?_⟩⟩
  · obtain ⟨k, v, hk, hv⟩ := exists_varintAt epoch ho hl hend
    exact ⟨v, _, varintRead_of_varintAt hv, by simp only; omega, rfl⟩
  · obtain ⟨k, v, hk, hv⟩ := exists_varintAt s.draws ho hl hend
    exact ⟨k, v, hk, exec_varint_of_varintAt hv⟩

/-! ### The canonical bytes -/

theorem varintBytesFuel_of_lt {n : Nat} (fuel : Nat) (h : n < 128) :
    varintBytesFuel fuel n = [BitVec.ofNat 8 n] := by
  cases fuel with
  | zero => rw [varintBytesFuel, Nat.mod_eq_of_lt h]
  | succ fuel => rw [varintBytesFuel, if_pos h]

theorem varintBytesFuel_of_ge {n : Nat} (fuel : Nat) (h : 128 ≤ n) :
    varintBytesFuel (fuel + 1) n =
      BitVec.ofNat 8 (n % 128 + 128) :: varintBytesFuel fuel (n / 128) := by
  rw [varintBytesFuel, if_neg (Nat.not_lt.2 h)]

theorem varintBytesFuel_length_le (fuel n : Nat) : (varintBytesFuel fuel n).length ≤ fuel + 1 := by
  induction fuel generalizing n with
  | zero => exact le_rfl
  | succ fuel ih =>
    rcases Nat.lt_or_ge n 128 with hlast | hmore
    · rw [varintBytesFuel_of_lt _ hlast]; simp
    · rw [varintBytesFuel_of_ge _ hmore]; exact Nat.succ_le_succ (ih _)

theorem varintBytesFuel_length_pos (fuel n : Nat) : 0 < (varintBytesFuel fuel n).length := by
  cases fuel with
  | zero => exact Nat.one_pos
  | succ fuel => rw [varintBytesFuel]; split <;> exact Nat.succ_pos _

/-- R7, R87: a canonical varint is in contract. -/
theorem varintBytes_length_le (n : Word) : (varintBytes n).length ≤ Config.varintMaxBytes :=
  varintBytesFuel_length_le _ _

/-! ### Reading the canonical bytes -/

/-- R100, one round: a byte whose group is `n` and whose continuation bit is clear ends the loop. -/
theorem varintLoop_last {m : Memory} {off lim n rounds : Nat} (k acc : Nat) (hn : n < 128)
    (hmem : memRead m off 1 = [BitVec.ofNat 8 n]) (hl : off < lim) (hr : 1 ≤ rounds) :
    varintLoop m rounds { off := off, lim := lim } k acc =
      .ok (k + 1, acc + n * 2 ^ (7 * k), { off := off + 1, lim := lim }) := by
  obtain ⟨rounds, rfl⟩ := Nat.exists_eq_add_one.2 hr
  have hb : Memory.byte m off = BitVec.ofNat 8 n := List.head_eq_of_cons_eq hmem
  have hval : (Memory.byte m off).toNat = n := by rw [hb, BitVec.toNat_ofNat]; omega
  have hend : ¬ varintContinues (Memory.byte m off) = true := by rw [varintContinues_iff]; omega
  rw [varintLoop, curReadByte_fits (by unfold curRem; exact Nat.sub_pos_of_lt hl)]
  simp only [if_neg hend, varintGroup, hval, Nat.mod_eq_of_lt hn]

/-- R100, one round: a byte whose continuation bit is set adds its group. -/
theorem varintLoop_more {m : Memory} {off lim g : Nat} (fuel k acc : Nat) (hl : off < lim)
    (hg : g < 128) (hb : Memory.byte m off = BitVec.ofNat 8 (g + 128)) :
    varintLoop m (fuel + 1) { off := off, lim := lim } k acc =
      varintLoop m fuel { off := off + 1, lim := lim } (k + 1) (acc + g * 2 ^ (7 * k)) := by
  have hval : (Memory.byte m off).toNat = g + 128 := by rw [hb, BitVec.toNat_ofNat]; omega
  have hmore : varintContinues (Memory.byte m off) = true := by rw [varintContinues_iff]; omega
  rw [varintLoop, curReadByte_fits (by unfold curRem; exact Nat.sub_pos_of_lt hl)]
  simp only [if_pos hmore, varintGroup, hval, Nat.add_mod_right, Nat.mod_eq_of_lt hg]

/-- The lowest group and the groups above it make up the number. -/
theorem low_group_add_high_groups (n k : Nat) :
    n % 128 * 2 ^ (7 * k) + n / 128 * 2 ^ (7 * (k + 1)) = n * 2 ^ (7 * k) :=
  calc n % 128 * 2 ^ (7 * k) + n / 128 * 2 ^ (7 * (k + 1))
    _ = (n % 128 + 128 * (n / 128)) * 2 ^ (7 * k) := by ring
    _ = n * 2 ^ (7 * k) := by rw [Nat.mod_add_div]

/-- R79, R100: the loop over the canonical bytes of `n` adds `n`, and stops after them. -/
theorem varintLoop_varintBytesFuel (m : Memory) (lim : Nat) :
    ∀ (fuel n off rounds k acc : Nat), n < 128 ^ (fuel + 1) →
      memRead m off (varintBytesFuel fuel n).length = varintBytesFuel fuel n →
      off + (varintBytesFuel fuel n).length ≤ lim → (varintBytesFuel fuel n).length ≤ rounds →
      varintLoop m rounds { off := off, lim := lim } k acc =
        .ok (k + (varintBytesFuel fuel n).length, acc + n * 2 ^ (7 * k),
          { off := off + (varintBytesFuel fuel n).length, lim := lim }) := by
  intro fuel
  induction fuel with
  | zero =>
    intro n off rounds k acc hn hmem hlim hrounds
    have hlast : n < 128 := by simpa using hn
    rw [varintBytesFuel_of_lt _ hlast] at hmem hlim hrounds ⊢
    exact varintLoop_last k acc hlast hmem hlim hrounds
  | succ fuel ih =>
    intro n off rounds k acc hn hmem hlim hrounds
    rcases Nat.lt_or_ge n 128 with hlast | hmore
    · rw [varintBytesFuel_of_lt _ hlast] at hmem hlim hrounds ⊢
      exact varintLoop_last k acc hlast hmem hlim hrounds
    · rw [varintBytesFuel_of_ge _ hmore, List.length_cons] at hmem hlim hrounds ⊢
      rw [memRead_succ, List.cons.injEq] at hmem
      obtain ⟨hbyte, htail⟩ := hmem
      obtain ⟨rounds, rfl⟩ := Nat.exists_eq_add_one.2 (Nat.zero_lt_of_lt hrounds)
      rw [varintLoop_more rounds k acc (by omega) (Nat.mod_lt n (by decide)) hbyte,
        ih (n / 128) (off + 1) rounds (k + 1) _
          (Nat.div_lt_of_lt_mul (by rwa [← Nat.pow_succ'])) htail (by omega) (by omega),
        Nat.add_assoc acc, low_group_add_high_groups, Nat.add_right_comm k, Nat.add_right_comm off]
      rfl

/-- R105: `varintRead` over the canonical varint of `n` gives `n`, whatever follows it. -/
theorem varintRead_varintBytes {m : Memory} {epoch : Nat} {c : Cursor} {n : Word}
    (hmem : memRead m c.off (varintBytes n).length = varintBytes n)
    (hlim : c.off + (varintBytes n).length ≤ c.lim) :
    varintRead m epoch c = .ok (n, { off := c.off + (varintBytes n).length, lim := c.lim }) := by
  have hrounds : (varintBytes n).length ≤ curRem c + 1 := by unfold curRem; omega
  have hloop : varintLoop m (curRem c + 1) c 0 0 =
      .ok ((varintBytes n).length, n.toNat,
        { off := c.off + (varintBytes n).length, lim := c.lim }) :=
    (varintLoop_varintBytesFuel m c.lim (Config.varintMaxBytes - 1) n.toNat c.off (curRem c + 1) 0 0
      (n.isLt.trans (by decide)) hmem hlim hrounds).trans (by simp [varintBytes])
  have hvalue : varintValue (varintBytes n).length n.toNat (Config.draw epoch c.off) = n := by
    rw [varintValue, if_pos ⟨varintBytes_length_le n, n.isLt⟩, BitVec.ofNat_toNat, BitVec.setWidth_eq]
  rw [varintRead, hloop]
  simp only [hvalue]

/-- What `varintRead` reads is a varint of the bytes it moved past. -/
theorem varintAt_of_varintRead {m : Memory} {epoch off lim k : Nat} {v : Word}
    (h : varintRead m epoch { off := off, lim := lim } = .ok (v, { off := off + k, lim := lim })) :
    VarintAt m epoch off lim k v := by
  rcases varintRead_cases m epoch { off := off, lim := lim } with ⟨k', v', hv, hread⟩ | ⟨_, herr⟩
  · rw [hread] at h
    simp only [Except.ok.injEq, Prod.mk.injEq, Cursor.mk.injEq, Nat.add_left_cancel_iff,
      and_true] at h
    obtain ⟨rfl, rfl⟩ := h
    exact hv
  · rw [herr] at h; cases h

/-- R79, R105: the canonical bytes of `n` are a varint of value `n`. -/
theorem varintAt_varintBytes {m : Memory} {off lim : Nat} {n : Word} (epoch : Nat)
    (hmem : memRead m off (varintBytes n).length = varintBytes n)
    (hlim : off + (varintBytes n).length ≤ lim) :
    VarintAt m epoch off lim (varintBytes n).length n :=
  varintAt_of_varintRead (varintRead_varintBytes hmem hlim)

/-- Settles O12: the canonical bytes are a varint of their value, below LEN. -/
theorem canonicalVarintRoundTrip : Obligations.CanonicalVarintRoundTrip := by
  unfold Obligations.CanonicalVarintRoundTrip
  intro s n hmem hrem
  have hpos : 0 < (varintBytes n).length := varintBytesFuel_length_pos _ _
  unfold State.remaining at hrem
  exact exec_varint_of_varintAt (varintAt_varintBytes s.draws hmem (by omega))

end Sys2Proof.Machine
end

section
/-! SUPPORT. The bits of an unpacked value and its closed form (42_bitpack.md R107), and the run of width 0
(R109). -/

namespace Sys2Proof.Machine

/-! ### The bits -/

/-- The digits of a sum of distinct powers of two are its bits. -/
theorem testBit_sum_bits (f : Nat → Bool) (n i : Nat) :
    ((List.range n).map fun j => (f j).toNat * 2 ^ j).sum.testBit i = (decide (i < n) && f i) := by
  induction n with
  | zero => simp
  | succ n ih =>
    rw [List.range_succ, List.map_append, List.sum_append, List.map_singleton, List.sum_singleton,
      Nat.add_comm, Nat.mul_comm, Nat.testBit_two_pow_mul_add _ (sum_bits_lt f n), ih,
      Nat.testBit_bool_toNat]
    rcases Nat.lt_trichotomy i n with hlt | rfl | hgt
    · simp [hlt, Nat.lt_succ_of_lt hlt]
    · simp
    · simp [hgt.not_gt, Nat.sub_ne_zero_of_lt hgt, Nat.not_lt.2 hgt]

/-- R107: bit i of value v is body bit `v·bw + i`, and no bit stands at or above bw. -/
theorem testBit_unpack (bs : List Byte) (bw v i : Nat) :
    (unpack bs bw v).testBit i = (decide (i < bw) && bodyBit bs (v * bw + i)) :=
  testBit_sum_bits (fun i => bodyBit bs (v * bw + i)) bw i

theorem bodyBit_cons_of_lt (b : Byte) (bs : List Byte) {p : Nat} (h : p < 8) :
    bodyBit (b :: bs) p = b.getLsbD p := by
  rw [bodyBit, Nat.div_eq_of_lt h, Nat.mod_eq_of_lt h, List.getD_cons_zero]

theorem bodyBit_cons_of_ge (b : Byte) (bs : List Byte) {p : Nat} (h : 8 ≤ p) :
    bodyBit (b :: bs) p = bodyBit bs (p - 8) := by
  rw [bodyBit, bodyBit, show p / 8 = (p - 8) / 8 + 1 by omega, List.getD_cons_succ,
    show p % 8 = (p - 8) % 8 by omega]

/-- The bits of the body read as one little-endian number are the body's bits in order. -/
theorem testBit_le (bs : List Byte) (p : Nat) : (le bs).testBit p = bodyBit bs p := by
  induction bs generalizing p with
  | nil => simp [bodyBit]
  | cons b bs ih =>
    rw [le_cons, Nat.add_comm, show 256 = 2 ^ 8 from rfl, Nat.testBit_two_pow_mul_add _ b.isLt]
    split
    · next hlow => rw [bodyBit_cons_of_lt b bs hlow]; rfl
    · next hhigh => rw [bodyBit_cons_of_ge b bs (Nat.le_of_not_lt hhigh), ih]

/-- R107, the closed form: both sides have the same bits. -/
theorem unpack_eq_le_div_mod (bs : List Byte) (bw v : Nat) :
    unpack bs bw v = le bs / 2 ^ (v * bw) % 2 ^ bw :=
  Nat.eq_of_testBit_eq fun i => by
    rw [testBit_unpack, Nat.testBit_mod_two_pow, Nat.testBit_div_two_pow, testBit_le, Nat.add_comm]

theorem unpack_lt_of_legal_width (bs : List Byte) {bw : Nat} (hbw : bw ≤ 32) (v : Nat) :
    unpack bs bw v < 2 ^ 32 :=
  (unpack_lt bs bw v).trans_le (Nat.pow_le_pow_right Nat.two_pos hbw)

/-! ### The run -/

/-- A bit-packed run that succeeds had its body, and emits the body's values. -/
theorem bitPackRun_eq_ok {m : Memory} {c c' : Cursor} {h : Word} {bw : Nat} {vals : List Val}
    (hok : bitPackRun m c h bw = .ok (vals, c')) :
    vals = (List.range (8 * (h.toNat / 2))).map fun v =>
      BitVec.ofNat 64 (unpack (memRead m c.off (h.toNat / 2 * bw)) bw v) := by
  rcases Nat.lt_or_ge (curRem c) (h.toNat / 2 * bw) with hshort | hfits
  · rw [bitPackRun_short hshort] at hok; cases hok
  · rw [bitPackRun_fits hfits] at hok; cases hok; rfl

/-- Settles O13: an unpacked value and the closed form have the same bits, and 64 bits hold the value. -/
theorem unpackIsTheBitsAndTheClosedForm : Obligations.UnpackIsTheBitsAndTheClosedForm := by
  unfold Obligations.UnpackIsTheBitsAndTheClosedForm
  intro bs bw v
  refine ⟨testBit_unpack bs bw v, unpack_eq_le_div_mod bs bw v, unpack_lt bs bw v,
    fun hbw => unpack_lt_of_legal_width bs hbw v, fun m c c' h vals _ hbw hok hv => ?_⟩
  have hlt := unpack_lt_of_legal_width (memRead m c.off (h.toNat / 2 * bw)) hbw v
  have hlen : v < (List.range (8 * (h.toNat / 2))).length := by rwa [List.length_range]
  rw [bitPackRun_eq_ok hok, List.getD_eq_getElem _ _ (by rwa [List.length_map]), List.getElem_map,
    List.getElem_range, BitVec.toNat_ofNat, Nat.mod_eq_of_lt (hlt.trans (by decide))]

/-- R109: a run of width 0, whatever the cursor holds. -/
theorem bitPackRun_width_zero (m : Memory) (c : Cursor) (h : Word) :
    bitPackRun m c h 0 = .ok (List.replicate (8 * (h.toNat / 2)) 0, c) := by
  rw [bitPackRun, if_pos rfl]; rfl

/-- Settles O15: the run of width 0 leaves the cursor where it stood, so the command commits 0 bytes. -/
theorem bitpackWidthZeroEmitsZeros : Obligations.BitpackWidthZeroEmitsZeros := by
  unfold Obligations.BitpackWidthZeroEmitsZeros
  refine ⟨bitPackRun_width_zero, fun s => ?_⟩
  refine exec_of_commandOutcome_ok (lim := s.mainCursor.lim) rfl ?_
  have hzero : (0 : BitVec 6).toNat = 0 := rfl
  rw [commandOutcome, withLegalWidth_ok (by decide), hzero, bitpackOutcome, bitPackRun_width_zero]
  rfl

end Sys2Proof.Machine
end

section
/-! SUPPORT. What a run instruction does inside a hybrid command (44_hybrid.md R122, R124, log 7), said once
for both run kinds by their header: the run whose body fits, the run whose body is missing, and the run of
a width that no command may have. -/

namespace Sys2Proof.Machine

/-! ### The body and the values of a run, by its kind -/

theorem encode_runRle_getLsbD_zero (count : BitVec 31) :
    (encode (.runRle count)).getLsbD 0 = false := by
  rw [← Bool.not_eq_true, getLsbD_zero_iff, encode_runRle_toNat]
  omega

theorem encode_runBp_getLsbD_zero (g : BitVec 31) :
    (encode (.runBp g)).getLsbD 0 = true := by
  rw [getLsbD_zero_iff, encode_runBp_toNat]
  omega

theorem encode_runRle_toNat_half (count : BitVec 31) :
    (encode (.runRle count)).toNat / 2 = count.toNat := by
  rw [encode_runRle_toNat]
  omega

theorem encode_runBp_toNat_half (g : BitVec 31) :
    (encode (.runBp g)).toNat / 2 = g.toNat := by
  rw [encode_runBp_toNat]
  omega

theorem bodyLength_runRle (bw : Nat) (count : BitVec 31) :
    bodyLength bw (encode (.runRle count)) = (bw + 7) / 8 := by
  rw [bodyLength, encode_runRle_getLsbD_zero, if_neg Bool.false_ne_true]

theorem bodyLength_runBp (bw : Nat) (g : BitVec 31) :
    bodyLength bw (encode (.runBp g)) = g.toNat * bw := by
  rw [bodyLength, encode_runBp_getLsbD_zero, if_pos rfl, encode_runBp_toNat_half]

theorem runValues_runRle (bw : Nat) (count : BitVec 31) (body : List Byte) :
    runValues bw (encode (.runRle count)) body =
      List.replicate count.toNat (BitVec.ofNat 64 (le body)) := by
  rw [runValues, encode_runRle_getLsbD_zero, if_neg Bool.false_ne_true, encode_runRle_toNat_half]

theorem runValues_runBp (bw : Nat) (g : BitVec 31) (body : List Byte) :
    runValues bw (encode (.runBp g)) body =
      (List.range (8 * g.toNat)).map fun v => BitVec.ofNat 64 (unpack body bw v) := by
  rw [runValues, encode_runBp_getLsbD_zero, if_pos rfl, encode_runBp_toNat_half]

/-! ### Executing a run -/

/-- R122: the run a header selects is the two-way dispatch on that header, at the latched width. -/
theorem exec_decodeHeader (h : Word) (s : State) :
    exec (decodeHeader h) s =
      s.settleRun (withLegalWidth s.pend.bw fun bw => selectRun s.buf bw h s.stream) := by
  unfold decodeHeader selectRun
  split <;> rfl

theorem exec_run {i : Instr} (hi : i.isRun = true) (s : State) :
    exec i s =
      s.settleRun (withLegalWidth s.pend.bw fun bw => selectRun s.buf bw (encode i) s.stream) := by
  rw [← exec_decodeHeader, decodeHeader_encode hi]

/-- The transient state after a run with header `h` whose body was there: its values are appended and the
sub-cursor stands past the body. -/
def StreamRegs.afterRun (m : Memory) (bw : Nat) (h : Word) (r : StreamRegs) : StreamRegs :=
  { sub := { off := r.sub.off + bodyLength bw h, lim := r.sub.lim }
    vals := r.vals ++ runValues bw h (memRead m r.sub.off (bodyLength bw h)) }

/-- R122: a run of a legal width whose body fits moves the transient state on and nothing else. -/
theorem exec_run_fits {i : Instr} {s : State} (hi : i.isRun = true) (hbw : s.pend.bw.toNat ≤ 32)
    (hfits : bodyLength s.pend.bw.toNat (encode i) ≤ curRem s.stream.sub) :
    exec i s =
      .next { s with stream := s.stream.afterRun s.buf s.pend.bw.toNat (encode i) } := by
  rw [exec_run hi, withLegalWidth_ok hbw, selectRun_fits hfits]
  rfl

/-- R124: a run whose body is missing rolls the whole command back. -/
theorem exec_run_short {i : Instr} {s : State} (hi : i.isRun = true) (hbw : s.pend.bw.toNat ≤ 32)
    (hshort : curRem s.stream.sub < bodyLength s.pend.bw.toNat (encode i)) :
    exec i s = .next (s.rolledBack 1) := by
  rw [exec_run hi, withLegalWidth_ok hbw, selectRun_short hshort]
  rfl

/-- R77, log 7: a width above 32 rolls the whole command back before the body is read. -/
theorem exec_run_width_above {i : Instr} {s : State} (hi : i.isRun = true)
    (hbw : 32 < s.pend.bw.toNat) : exec i s = .next (s.rolledBack 3) := by
  rw [exec_run hi, withLegalWidth_error hbw]
  rfl

/-- A run moves the transient state on, or rolls the command back, and nothing else. -/
theorem exec_run_cases {i : Instr} {s t : State} (hi : i.isRun = true) (h : exec i s = .next t) :
    t = { s with stream := s.stream.afterRun s.buf s.pend.bw.toNat (encode i) } ∨
      ∃ code, t = s.rolledBack code := by
  rcases Nat.lt_or_ge 32 s.pend.bw.toNat with hwide | hbw
  · rw [exec_run_width_above hi hwide] at h
    cases h
    exact .inr ⟨3, rfl⟩
  rcases Nat.lt_or_ge (curRem s.stream.sub) (bodyLength s.pend.bw.toNat (encode i))
    with hshort | hfits
  · rw [exec_run_short hi hbw hshort] at h
    cases h
    exact .inr ⟨1, rfl⟩
  · rw [exec_run_fits hi hbw hfits] at h
    cases h
    exact .inl rfl

/-- Settles O22: the body of an RLE run is its value bytes, whatever the count. -/
theorem runRleAppendsItsValues : Obligations.RunRleAppendsItsValues := by
  unfold Obligations.RunRleAppendsItsValues
  intro s count hbw
  have hbody := bodyLength_runRle s.pend.bw.toNat count
  constructor
  · intro hfits
    rw [exec_run_fits rfl hbw (by rwa [hbody]), StreamRegs.afterRun, hbody, runValues_runRle]
  · intro hshort
    exact exec_run_short rfl hbw (by rwa [hbody])

/-- Settles O23: the body of a bit-packed run is as many bytes per group as the width has bits. -/
theorem runBpAppendsItsValues : Obligations.RunBpAppendsItsValues := by
  unfold Obligations.RunBpAppendsItsValues
  intro s g hbw
  have hbody := bodyLength_runBp s.pend.bw.toNat g
  constructor
  · intro hfits
    rw [exec_run_fits rfl hbw (by rwa [hbody]), StreamRegs.afterRun, hbody, runValues_runBp]
  · intro hshort
    exact exec_run_short rfl hbw (by rwa [hbody])

/-- Settles O27: a rollback moves the draw counter on, so a run that leaves it alone fitted. -/
theorem runFrame : Obligations.RunFrame := by
  unfold Obligations.RunFrame
  intro i s t hi h hdraws
  rcases exec_run_cases hi h with rfl | ⟨code, rfl⟩
  · exact ⟨rfl, rfl, Nat.le_add_right _ _, fun _ => rfl, _, rfl⟩
  · exact absurd hdraws (Nat.succ_ne_self s.draws)

end Sys2Proof.Machine
end

section
/-! SUPPORT. The rounds of the hybrid loop (44_hybrid.md R121 to R124): one round is a header and the run it
selects, and a payload needs no more rounds than it has bytes. -/

namespace Sys2Proof.Machine

theorem hybridRound_of_varintRead {m : Memory} {epoch bw : Nat} {r : StreamRegs} {h : Word}
    {sub : Cursor} (hread : varintRead m epoch r.sub = .ok (h, sub)) :
    hybridRound m epoch bw r = selectRun m bw h { sub := sub, vals := r.vals } := by
  rw [hybridRound, hread]

theorem hybridLoop_of_round_ok {m : Memory} {epoch bw : Nat} {r r' : StreamRegs} (fuel : Nat)
    (hrem : curRem r.sub ≠ 0) (hround : hybridRound m epoch bw r = .ok r') :
    hybridLoop m epoch bw (fuel + 1) r = hybridLoop m epoch bw fuel r' := by
  rw [hybridLoop, if_neg hrem, hround]

theorem hybridLoop_of_round_error {m : Memory} {epoch bw : Nat} {r : StreamRegs} {e : CmdError}
    (fuel : Nat) (hrem : curRem r.sub ≠ 0) (hround : hybridRound m epoch bw r = .error e) :
    hybridLoop m epoch bw (fuel + 1) r = .error e := by
  rw [hybridLoop, if_neg hrem, hround]

/-- Settles O20: the round and the run instruction make the same selection by the header, so both have its
body or both lack it. -/
theorem loopRoundIsTheRunInstruction : Obligations.LoopRoundIsTheRunInstruction := by
  unfold Obligations.LoopRoundIsTheRunInstruction
  intro s t h sub fuel hbw hrem hread hexec
  have hround := hybridRound_of_varintRead (bw := s.pend.bw.toNat) hread
  rw [exec_decodeHeader, withLegalWidth_ok hbw] at hexec
  rcases Nat.lt_or_ge (curRem sub) (bodyLength s.pend.bw.toNat h) with hshort | hfits
  · rw [selectRun_short hshort] at hround hexec
    cases hexec
    exact .inr ⟨rfl, hybridLoop_of_round_error fuel hrem hround⟩
  · rw [selectRun_fits hfits] at hround hexec
    cases hexec
    exact .inl ⟨rfl, rfl, hybridLoop_of_round_ok fuel hrem hround⟩

/-- R123: a round that succeeds consumes at least its header's first byte and stays inside the payload. -/
theorem hybridRound_advances {m : Memory} {epoch bw : Nat} {r r' : StreamRegs}
    (hround : hybridRound m epoch bw r = .ok r') :
    r.sub.off < r'.sub.off ∧ r'.sub.off ≤ r.sub.lim ∧ r'.sub.lim = r.sub.lim := by
  rcases varintRead_cases m epoch r.sub with ⟨k, h, hv, _⟩ | ⟨_, herr⟩
  · have hk := hv.pos
    rcases Nat.lt_or_ge r.sub.lim (r.sub.off + k + bodyLength bw h) with hshort | hfits
    · rw [hybridRound_short hv hshort] at hround
      cases hround
    · rw [hybridRound_fits hv hfits] at hround
      cases hround
      exact ⟨by dsimp only; omega, hfits, rfl⟩
  · rw [hybridRound, herr] at hround
    cases hround

/-- R123: the loop ends at the payload's end or on `TruncatedInput`, and does so in every number of rounds
that is at least the payload's bytes. -/
theorem hybridLoop_ends (m : Memory) (epoch bw : Nat) {r : StreamRegs} (hr : r.sub.off ≤ r.sub.lim) :
    (∀ fuel, curRem r.sub ≤ fuel → hybridLoop m epoch bw fuel r = .error .truncatedInput) ∨
      ∃ r', r'.sub = { off := r.sub.lim, lim := r.sub.lim } ∧
        ∀ fuel, curRem r.sub ≤ fuel → hybridLoop m epoch bw fuel r = .ok r' := by
  by_cases hs : ∃ vs, StreamOf m epoch bw r.sub.off r.sub.lim vs
  · obtain ⟨vs, hvs⟩ := hs
    exact .inr ⟨_, rfl, fun fuel hf => hybridLoop_of_streamOf hvs fuel hf r.vals⟩
  · refine .inl fun fuel hf => ?_
    rcases hybridLoop_cases m epoch bw fuel r.sub.off r.sub.lim r.vals hr hf
      with ⟨vs, hvs, _⟩ | ⟨_, h⟩
    · exact absurd ⟨vs, hvs⟩ hs
    · exact h

/-- Settles O21: both numbers of rounds are at least the payload's bytes, so they end alike. -/
theorem loopNeedsNoMoreRoundsThanBytes : Obligations.LoopNeedsNoMoreRoundsThanBytes := by
  unfold Obligations.LoopNeedsNoMoreRoundsThanBytes
  intro m epoch bw fuel r hr hf
  refine ⟨fun _ => hybridRound_advances, ?_⟩
  rcases hybridLoop_ends m epoch bw hr with herr | ⟨r', hsub, hok⟩
  · rw [herr fuel hf, herr _ le_rfl]
    exact ⟨rfl, .inl rfl⟩
  · rw [hok fuel hf, hok _ le_rfl]
    exact ⟨rfl, .inr ⟨r', rfl, by rw [hsub], by rw [hsub]⟩⟩

end Sys2Proof.Machine
end

section
/-! SUPPORT. Why a command rolls back (60_exceptions.md R129, R133, R138): bytes are missing, or its width is
above 32. A command of a legal width reads its bytes one primitive after another, and each of these fails, if at
all, with `TruncatedInput`. -/

namespace Sys2Proof.Machine

/-- Where `r` fails, it fails for want of bytes. -/
def FailsOnlyTruncated {α : Type} (r : Except CmdError α) : Prop :=
  ∀ e, r = .error e → e = .truncatedInput

theorem failsOnlyTruncated_ok {α : Type} (a : α) : FailsOnlyTruncated (.ok a) := nofun

theorem failsOnlyTruncated_truncatedInput {α : Type} :
    FailsOnlyTruncated (α := α) (.error .truncatedInput) := by
  rintro _ ⟨⟩
  rfl

/-- A command that passes on the error of a read fails as the read does. -/
theorem FailsOnlyTruncated.passOn {α β : Type} {r : Except CmdError α} {e : CmdError}
    (hr : FailsOnlyTruncated r) (he : r = .error e) : FailsOnlyTruncated (α := β) (.error e) := by
  rw [hr e he]
  exact failsOnlyTruncated_truncatedInput

/-! ### The reads -/

theorem curReadByte_failsOnlyTruncated (m : Memory) (c : Cursor) :
    FailsOnlyTruncated (curReadByte m c) := by
  rcases Nat.eq_zero_or_pos (curRem c) with hshort | hfits
  · rw [curReadByte_short hshort]; exact failsOnlyTruncated_truncatedInput
  · rw [curReadByte_fits hfits]; exact failsOnlyTruncated_ok _

theorem curReadN_failsOnlyTruncated (m : Memory) (c : Cursor) (n : Nat) :
    FailsOnlyTruncated (curReadN m c n) := by
  rcases Nat.lt_or_ge (curRem c) n with hshort | hfits
  · rw [curReadN_short hshort]; exact failsOnlyTruncated_truncatedInput
  · rw [curReadN_fits hfits]; exact failsOnlyTruncated_ok _

theorem curReadLE32_failsOnlyTruncated (m : Memory) (c : Cursor) :
    FailsOnlyTruncated (curReadLE32 m c) := by
  unfold curReadLE32
  split
  · next he => exact (curReadN_failsOnlyTruncated m c _).passOn he
  · exact failsOnlyTruncated_ok _

theorem varintRead_failsOnlyTruncated (m : Memory) (epoch : Nat) (c : Cursor) :
    FailsOnlyTruncated (varintRead m epoch c) := by
  rcases varintRead_cases m epoch c with ⟨k, v, _, hok⟩ | ⟨_, herr⟩
  · rw [hok]; exact failsOnlyTruncated_ok _
  · rw [herr]; exact failsOnlyTruncated_truncatedInput

theorem bitPackRun_failsOnlyTruncated (m : Memory) (c : Cursor) (h : Word) (bw : Nat) :
    FailsOnlyTruncated (bitPackRun m c h bw) := by
  rcases Nat.lt_or_ge (curRem c) (h.toNat / 2 * bw) with hshort | hfits
  · rw [bitPackRun_short hshort]; exact failsOnlyTruncated_truncatedInput
  · rw [bitPackRun_fits hfits]; exact failsOnlyTruncated_ok _

theorem rleRun_failsOnlyTruncated (m : Memory) (c : Cursor) (h : Word) (bw : Nat) :
    FailsOnlyTruncated (rleRun m c h bw) := by
  rcases Nat.lt_or_ge (curRem c) ((bw + 7) / 8) with hshort | hfits
  · rw [rleRun_short hshort]; exact failsOnlyTruncated_truncatedInput
  · rw [rleRun_fits hfits]; exact failsOnlyTruncated_ok _

theorem hybridPayload_failsOnlyTruncated (m : Memory) (epoch bw : Nat) (n : Word) (c : Cursor) :
    FailsOnlyTruncated (hybridPayload m epoch bw n c) := by
  rcases Nat.lt_or_ge (curRem c) n.toNat with hshort | hfits
  · rw [hybridPayload_short hshort]; exact failsOnlyTruncated_truncatedInput
  · rcases hybridPayload_cases m epoch bw n c hfits with ⟨vs, _, hok⟩ | ⟨_, herr⟩
    · rw [hok]; exact failsOnlyTruncated_ok _
    · rw [herr]; exact failsOnlyTruncated_truncatedInput

/-! ### The commands -/

theorem rdbyteOutcome_failsOnlyTruncated (m : Memory) (c : Cursor) :
    FailsOnlyTruncated (rdbyteOutcome m c) := by
  unfold rdbyteOutcome
  split
  · next he => exact (curReadByte_failsOnlyTruncated m c).passOn he
  · exact failsOnlyTruncated_ok _

theorem rdnOutcome_failsOnlyTruncated (m : Memory) (c : Cursor) (n : Word) :
    FailsOnlyTruncated (rdnOutcome m c n) := by
  unfold rdnOutcome
  split
  · next he => exact (curReadN_failsOnlyTruncated m c _).passOn he
  · exact failsOnlyTruncated_ok _

theorem rdu32Outcome_failsOnlyTruncated (m : Memory) (c : Cursor) :
    FailsOnlyTruncated (rdu32Outcome m c) := by
  unfold rdu32Outcome
  split
  · next he => exact (curReadLE32_failsOnlyTruncated m c).passOn he
  · exact failsOnlyTruncated_ok _

theorem varintOutcome_failsOnlyTruncated (m : Memory) (epoch : Nat) (c : Cursor) :
    FailsOnlyTruncated (varintOutcome m epoch c) := by
  unfold varintOutcome
  split
  · next he => exact (varintRead_failsOnlyTruncated m epoch c).passOn he
  · exact failsOnlyTruncated_ok _

theorem bitpackOutcome_failsOnlyTruncated (m : Memory) (c : Cursor) (h : Word) (bw : Nat) :
    FailsOnlyTruncated (bitpackOutcome m c h bw) := by
  unfold bitpackOutcome
  split
  · next he => exact (bitPackRun_failsOnlyTruncated m c h bw).passOn he
  · exact failsOnlyTruncated_ok _

theorem rleOutcome_failsOnlyTruncated (m : Memory) (c : Cursor) (h : Word) (bw : Nat) :
    FailsOnlyTruncated (rleOutcome m c h bw) := by
  unfold rleOutcome
  split
  · next he => exact (rleRun_failsOnlyTruncated m c h bw).passOn he
  · exact failsOnlyTruncated_ok _

theorem hybPOutcome_failsOnlyTruncated (m : Memory) (epoch : Nat) (c : Cursor) (bw : Nat) :
    FailsOnlyTruncated (hybPOutcome m epoch c bw) := by
  unfold hybPOutcome
  split
  · next he => exact (curReadLE32_failsOnlyTruncated m c).passOn he
  · exact hybridPayload_failsOnlyTruncated m epoch bw _ _

theorem withLegalWidth_failsOnlyTruncated {α : Type} {bw : BitVec 6} {k : Nat → Except CmdError α}
    (hbw : bw.toNat ≤ 32) (hk : FailsOnlyTruncated (k bw.toNat)) :
    FailsOnlyTruncated (withLegalWidth bw k) := by
  rwa [withLegalWidth_ok hbw]

/-- R129, R133: a command without a width, or of a legal one, fails only for want of bytes. -/
theorem commandOutcome_failsOnlyTruncated {i : Instr} (s : State) (hi : i.isCommand = true)
    (hbw : ∀ bw, i.width = some bw → bw.toNat ≤ 32) : FailsOnlyTruncated (commandOutcome i s) := by
  cases i with
  | rdbyte => exact rdbyteOutcome_failsOnlyTruncated _ _
  | rdn => exact rdnOutcome_failsOnlyTruncated _ _ _
  | rdu32 => exact rdu32Outcome_failsOnlyTruncated _ _
  | varint => exact varintOutcome_failsOnlyTruncated _ _ _
  | bitpack bw =>
    exact withLegalWidth_failsOnlyTruncated (hbw bw rfl) (bitpackOutcome_failsOnlyTruncated _ _ _ _)
  | rle bw =>
    exact withLegalWidth_failsOnlyTruncated (hbw bw rfl) (rleOutcome_failsOnlyTruncated _ _ _ _)
  | hybP bw =>
    exact withLegalWidth_failsOnlyTruncated (hbw bw rfl) (hybPOutcome_failsOnlyTruncated _ _ _ _)
  | hybL bw =>
    exact withLegalWidth_failsOnlyTruncated (hbw bw rfl) (hybridPayload_failsOnlyTruncated _ _ _ _ _)
  | runRle _ => cases hi
  | runBp _ => cases hi

/-- R136: a command whose outcome succeeds commits at most the bytes that remained. -/
theorem exec_commits_of_outcome_ok {i : Instr} {s : State} {o : CmdOk} (hi : i.isCommand = true)
    (ho : commandOutcome i s = .ok o) :
    ∃ k result values, k ≤ s.remaining ∧ exec i s = .next (s.committed k result values) := by
  obtain ⟨k, hk, hcur⟩ := commandOutcome_advances i s o ho
  rw [State.curRem_mainCursor] at hk
  exact ⟨k, o.result, o.values, hk,
    by rw [exec_command i s hi, ho, State.settle_ok, State.commit_eq_committed s o k hcur]⟩

/-- R129, R137: a command of a legal width whose outcome fails rolls back with code 1. -/
theorem exec_rolls_back_of_outcome_error {i : Instr} {s : State} {e : CmdError}
    (hi : i.isCommand = true) (hbw : ∀ bw, i.width = some bw → bw.toNat ≤ 32)
    (he : commandOutcome i s = .error e) : exec i s = .next (s.rolledBack 1) := by
  rw [exec_command i s hi, he, commandOutcome_failsOnlyTruncated s hi hbw e he, State.settle_error,
    State.rollback_eq_rolledBack]
  rfl

/-- Settles O25: a width above 32 rolls back before any byte is read; at a legal width the outcome decides
between the commit and the rollback. -/
theorem commandHappensWhollyOrNotAtAll : Obligations.CommandHappensWhollyOrNotAtAll := by
  unfold Obligations.CommandHappensWhollyOrNotAtAll
  intro i s hi
  by_cases hwide : ∃ bw, i.width = some bw ∧ 32 < bw.toNat
  · obtain ⟨bw, hw, hbw⟩ := hwide
    exact .inr (.inr ⟨exec_width_above s hw hbw, bw, hw, hbw⟩)
  · have hlegal : ∀ bw, i.width = some bw → bw.toNat ≤ 32 := fun bw hw =>
      Nat.le_of_not_lt fun hbw => hwide ⟨bw, hw, hbw⟩
    cases hout : commandOutcome i s with
    | ok o => exact .inl (exec_commits_of_outcome_ok hi hout)
    | error e => exact .inr (.inl (exec_rolls_back_of_outcome_error hi hlegal hout))

end Sys2Proof.Machine
end

section
/-! SUPPORT. The commands where the bytes they must read are missing (40_cursor.md R96 to R98, 42_bitpack.md
R111, 43_rle.md R117, 44_hybrid.md R126, R127), the forms that read no byte, and both at LEN = 0
(70_reset_and_hazards.md R153). -/

namespace Sys2Proof.Machine

/-! ### Too few bytes -/

/-- R129, R137: a command whose outcome is `TruncatedInput` rolls back with code 1. -/
theorem exec_of_commandOutcome_truncated {i : Instr} {s : State} (hi : i.isCommand = true)
    (ho : commandOutcome i s = .error .truncatedInput) : exec i s = .next (s.rolledBack 1) := by
  rw [exec_command i s hi, ho]
  rfl

/-- R96: RDBYTE with no byte left. -/
theorem exec_rdbyte_short {s : State} (h : s.remaining = 0) :
    exec .rdbyte s = .next (s.rolledBack 1) := by
  have hrem : curRem s.mainCursor = 0 := by rw [State.curRem_mainCursor]; exact h
  refine exec_of_commandOutcome_truncated rfl ?_
  simp only [commandOutcome, rdbyteOutcome, curReadByte_short hrem]

/-- R97: RDN with fewer bytes left than ARG asks for. -/
theorem exec_rdn_short {s : State} (h : s.remaining < s.pend.arg.toNat) :
    exec .rdn s = .next (s.rolledBack 1) := by
  have hrem : curRem s.mainCursor < s.operand.toNat := by rw [State.curRem_mainCursor]; exact h
  refine exec_of_commandOutcome_truncated rfl ?_
  simp only [commandOutcome, rdnOutcome, curReadN_short hrem]

/-- R111: BITPACK of a legal width whose body is missing. -/
theorem exec_bitpack_short {s : State} {bw : BitVec 6} (hbw : bw.toNat ≤ 32)
    (h : s.remaining < s.pend.arg.toNat / 2 * bw.toNat) :
    exec (.bitpack bw) s = .next (s.rolledBack 1) := by
  have hrem : curRem s.mainCursor < s.operand.toNat / 2 * bw.toNat := by
    rw [State.curRem_mainCursor]; exact h
  refine exec_of_commandOutcome_truncated rfl ?_
  simp only [commandOutcome, withLegalWidth_ok hbw, bitpackOutcome, bitPackRun_short hrem]

/-- R117: RLE of a legal width whose value is missing. -/
theorem exec_rle_short {s : State} {bw : BitVec 6} (hbw : bw.toNat ≤ 32)
    (h : s.remaining < (bw.toNat + 7) / 8) : exec (.rle bw) s = .next (s.rolledBack 1) := by
  have hrem : curRem s.mainCursor < (bw.toNat + 7) / 8 := by rw [State.curRem_mainCursor]; exact h
  refine exec_of_commandOutcome_truncated rfl ?_
  simp only [commandOutcome, withLegalWidth_ok hbw, rleOutcome, rleRun_short hrem]

/-- R126: HYB.P of a legal width whose length prefix is missing. -/
theorem exec_hybP_prefix_short {s : State} {bw : BitVec 6} (hbw : bw.toNat ≤ 32)
    (h : s.remaining < 4) : exec (.hybP bw) s = .next (s.rolledBack 1) := by
  have hrem : curRem s.mainCursor < 4 := by rw [State.curRem_mainCursor]; exact h
  refine exec_of_commandOutcome_truncated rfl ?_
  simp only [commandOutcome, withLegalWidth_ok hbw, hybPOutcome, curReadLE32_short hrem]

/-- R127: HYB.L of a legal width whose payload is longer than what remains. -/
theorem exec_hybL_short {s : State} {bw : BitVec 6} (hbw : bw.toNat ≤ 32)
    (h : s.remaining < s.pend.arg.toNat) : exec (.hybL bw) s = .next (s.rolledBack 1) := by
  have hrem : curRem s.mainCursor < s.operand.toNat := by rw [State.curRem_mainCursor]; exact h
  refine exec_of_commandOutcome_truncated rfl ?_
  simp only [commandOutcome, withLegalWidth_ok hbw, hybLOutcome, hybridPayload_short hrem]

/-! ### The bytes that ARG asks for are there -/

/-- R97: RDN with the bytes left that ARG asks for. -/
theorem exec_rdn_fits {s : State} (h : s.pend.arg.toNat ≤ s.remaining) :
    exec .rdn s =
      .next (s.committed s.pend.arg.toNat 0
        ((memRead s.buf s.off.toNat s.pend.arg.toNat).map fun b => b.setWidth 64)) := by
  have hrem : s.operand.toNat ≤ curRem s.mainCursor := by rw [State.curRem_mainCursor]; exact h
  refine exec_of_commandOutcome_ok (lim := s.mainCursor.lim) rfl ?_
  simp only [commandOutcome, rdnOutcome, curReadN_fits hrem, State.memRead_mainCursor s hrem]
  rfl

/-- R119 to R121: a payload that fits and is runs back to back gives their values. -/
theorem hybridPayload_of_streamOf {m : Memory} {epoch bw : Nat} {n : Word} {c : Cursor}
    {vs : List Val} (hfits : n.toNat ≤ curRem c)
    (hvs : StreamOf m epoch bw c.off (c.off + n.toNat) vs) :
    hybridPayload m epoch bw n c =
      .ok { result := n, values := vs, cur := { off := c.off + n.toNat, lim := c.lim } } := by
  rcases hybridPayload_cases m epoch bw n c hfits with ⟨vs', hvs', hok⟩ | ⟨hnone, _⟩
  · rw [hok, hvs.unique hvs']
  · exact absurd ⟨vs, hvs⟩ hnone

/-- R127: HYB.L of a legal width over a payload that fits and is runs back to back. -/
theorem exec_hybL_of_streamOf {s : State} {bw : BitVec 6} {vs : List Val} (hbw : bw.toNat ≤ 32)
    (h : s.pend.arg.toNat ≤ s.remaining)
    (hvs : StreamOf s.buf s.draws bw.toNat s.mainCursor.off
      (s.mainCursor.off + s.pend.arg.toNat) vs) :
    exec (.hybL bw) s = .next (s.committed s.pend.arg.toNat s.pend.arg vs) := by
  have hrem : s.operand.toNat ≤ curRem s.mainCursor := by rw [State.curRem_mainCursor]; exact h
  refine exec_of_commandOutcome_ok (lim := s.mainCursor.lim) rfl ?_
  rw [commandOutcome, withLegalWidth_ok hbw]
  exact hybridPayload_of_streamOf hrem hvs

/-! ### The forms that read no byte -/

/-- R97: RDN 0, in every state. -/
theorem exec_rdn_zero {s : State} (harg : s.pend.arg = 0) :
    exec .rdn s = .next (s.committed 0 0 []) := by
  rw [exec_rdn_fits (by rw [harg]; exact Nat.zero_le _), harg]
  rfl

/-- R116: RLE of width 0, in every state. -/
theorem exec_rle_width_zero (s : State) :
    exec (.rle 0) s = .next (s.committed 0 0 (List.replicate (s.pend.arg.toNat / 2) 0)) :=
  exec_rle_fits (by decide) (Nat.zero_le _)

/-- R121, R127: HYB.L 0 of a legal width, in every state: an empty payload is no run at all. -/
theorem exec_hybL_zero {s : State} {bw : BitVec 6} (hbw : bw.toNat ≤ 32) (harg : s.pend.arg = 0) :
    exec (.hybL bw) s = .next (s.committed 0 0 []) := by
  have hlen : s.pend.arg.toNat = 0 := by rw [harg]; rfl
  have hdone : StreamOf s.buf s.draws bw.toNat s.mainCursor.off
      (s.mainCursor.off + s.pend.arg.toNat) [] := by rw [hlen]; exact .done _
  rw [exec_hybL_of_streamOf hbw (by rw [hlen]; exact Nat.zero_le _) hdone, harg]
  rfl

/-! ### An empty buffer -/

/-- R153: at LEN = 0 no byte remains, wherever OFF stands. -/
theorem State.remaining_of_len_zero {s : State} (hlen : s.len = 0) : s.remaining = 0 := by
  rw [State.remaining, hlen]
  exact Nat.zero_sub _

/-- Settles O45: no byte remains, so every form that must read one is short, and the forms that read none
complete as they do in every state. -/
theorem emptyBufferCommands : Obligations.EmptyBufferCommands := by
  unfold Obligations.EmptyBufferCommands
  intro s bw hlen hbw
  have hrem : s.remaining = 0 := State.remaining_of_len_zero hlen
  have hshort {n : Nat} (hn : 0 < n) : s.remaining < n := by rwa [hrem]
  refine ⟨exec_rdbyte_short hrem, exec_rdu32_short (hshort (by decide)),
    exec_varint_unterminated fun a _ hlt => ?_, exec_hybP_prefix_short hbw (hshort (by decide)),
    fun hw => exec_rle_short hbw (hshort ?_), fun hw hgroups => exec_bitpack_short hbw (hshort ?_),
    fun harg => ?_, fun harg => ⟨exec_rdn_zero harg, exec_hybL_zero hbw harg⟩,
    bitpackWidthZeroEmitsZeros.2 s, exec_rle_width_zero s⟩
  · rw [hlen] at hlt
    exact absurd hlt (Nat.not_lt_zero a)
  · have hpos := BitVec.toNat_pos_of_ne_zero hw
    omega
  · exact Nat.mul_pos (Nat.div_pos hgroups Nat.two_pos) (BitVec.toNat_pos_of_ne_zero hw)
  · have hpos := hshort (BitVec.toNat_pos_of_ne_zero harg)
    exact ⟨exec_rdn_short hpos, exec_hybL_short hbw hpos⟩

end Sys2Proof.Machine
end

section
/-! SUPPORT. A command word and the command it spells are read off each other (30_encoding.md R72 to R76), by
its fields and by the match and mask of its row (R74). -/

namespace Sys2Proof.Machine

/-! ### The fields -/

/-- A word has one reading as four fields. -/
theorem commandWord_eq_iff {op op' : BitVec 4} {bw bw' : BitVec 6} {lm lm' : BitVec 1}
    {rsv rsv' : BitVec 21} :
    commandWord op bw lm rsv = commandWord op' bw' lm' rsv' ↔
      op = op' ∧ bw = bw' ∧ lm = lm' ∧ rsv = rsv' := by
  constructor
  · intro h
    refine ⟨?_, ?_, ?_, ?_⟩
    · simpa using congrArg opField h
    · simpa using congrArg bwField h
    · simpa using congrArg lmField h
    · simpa using congrArg rsvField h
  · rintro ⟨rfl, rfl, rfl, rfl⟩; rfl

theorem decodeCommand_commandWord (op : BitVec 4) (bw : BitVec 6) (lm : BitVec 1)
    (rsv : BitVec 21) : decodeCommand (commandWord op bw lm rsv) = decodeFields op bw lm rsv := by
  simp only [decodeCommand, opField_commandWord, bwField_commandWord, lmField_commandWord,
    rsvField_commandWord]

theorem plainCommand_eq_ok_iff {i j : Instr} {bw : BitVec 6} {lm : BitVec 1} :
    plainCommand i bw lm = .ok j ↔ bw = 0 ∧ lm = 0 ∧ j = i := by
  unfold plainCommand
  split
  · next hbw => exact iff_of_false nofun fun h => hbw h.1
  · next hbw =>
    split
    · next hlm => exact iff_of_false nofun fun h => hlm h.2.1
    · next hlm =>
      rw [Except.ok.injEq, eq_comm, and_iff_right (not_not.1 hbw), and_iff_right (not_not.1 hlm)]

theorem widthCommand_eq_ok_iff {i j : Instr} {lm : BitVec 1} :
    widthCommand i lm = .ok j ↔ lm = 0 ∧ j = i := by
  unfold widthCommand
  split
  · next hlm => exact iff_of_false nofun fun h => hlm h.1
  · next hlm => rw [Except.ok.injEq, eq_comm, and_iff_right (not_not.1 hlm)]

/-- R88: the word of a command decodes to that command. -/
theorem decodeCommand_encode {i : Instr} (hi : i.isCommand = true) :
    decodeCommand (encode i) = .ok i := by
  cases i with
  | runRle _ => cases hi
  | runBp _ => cases hi
  | _ => exact decodeCommand_commandWord _ _ _ _

/-- R73, R74: fields that spell a command are those of its word. -/
theorem encode_of_decodeFields {op : BitVec 4} {bw : BitVec 6} {lm : BitVec 1} {rsv : BitVec 21}
    {i : Instr} (h : decodeFields op bw lm rsv = .ok i) : encode i = commandWord op bw lm rsv := by
  unfold decodeFields at h
  split at h
  · cases h
  next hrsv =>
  obtain rfl : rsv = 0 := not_not.1 hrsv
  split at h
  iterate 4
    · next hop =>
      obtain ⟨rfl, rfl, rfl⟩ := plainCommand_eq_ok_iff.1 h
      exact congrArg (commandWord · 0 0 0) (BitVec.eq_of_toNat_eq hop.symm)
  iterate 2
    · next hop =>
      obtain ⟨rfl, rfl⟩ := widthCommand_eq_ok_iff.1 h
      exact congrArg (commandWord · bw 0 0) (BitVec.eq_of_toNat_eq hop.symm)
  · next hop =>
    obtain rfl : op = 7 := BitVec.eq_of_toNat_eq hop
    split at h
    · next hlm => cases h; rw [hlm]; rfl
    · next hlm => cases h; rw [lm.eq_zero_or_eq_one.resolve_left hlm]; rfl
  · cases h

/-- R72 to R76: a word decodes to a command exactly when it is the command's word. -/
theorem decodeCommand_eq_ok_iff {w : Word} {i : Instr} :
    decodeCommand w = .ok i ↔ i.isCommand = true ∧ encode i = w := by
  constructor
  · intro h
    exact ⟨decodeFields_isCommand h, (encode_of_decodeFields h).trans (commandWord_fields w)⟩
  · rintro ⟨hi, rfl⟩
    exact decodeCommand_encode hi

/-- Settles O1: the fields of a word make up the word, and the word of a command has the command's fields. -/
theorem commandDecodesIffItIsTheEncoding : Obligations.CommandDecodesIffItIsTheEncoding := by
  unfold Obligations.CommandDecodesIffItIsTheEncoding
  exact fun _ _ => decodeCommand_eq_ok_iff

/-! ### Match and mask -/

theorem commandWord_and (op op' : BitVec 4) (bw bw' : BitVec 6) (lm lm' : BitVec 1)
    (rsv rsv' : BitVec 21) :
    commandWord op bw lm rsv &&& commandWord op' bw' lm' rsv' =
      commandWord (op &&& op') (bw &&& bw') (lm &&& lm') (rsv &&& rsv') := by
  refine BitVec.and_append.trans ?_
  rw [BitVec.and_append, BitVec.and_append]
  rfl

/-- R74: the mask of the rows with a width leaves out BW alone. -/
theorem and_widthMask (w : Word) :
    w &&& 0xFFFFFC0F = commandWord (opField w) 0 (lmField w) (rsvField w) := by
  have hmask : (0xFFFFFC0F : Word) =
      commandWord (BitVec.allOnes 4) 0 (BitVec.allOnes 1) (BitVec.allOnes 21) := by decide
  rw [hmask]
  conv_lhs => rw [← commandWord_fields w, commandWord_and]
  simp only [BitVec.and_allOnes, BitVec.ofNat_eq_ofNat, BitVec.and_zero]

/-- R74: a word without BW decodes to its command exactly when it is the row's match. -/
theorem decodeCommand_eq_ok_iff_and {w : Word} {i : Instr} (hi : i.isCommand = true) :
    decodeCommand w = .ok i ↔ w &&& 0xFFFFFFFF = encode i := by
  have hmask : w &&& 0xFFFFFFFF = w := BitVec.and_allOnes
  rw [hmask, decodeCommand_eq_ok_iff, and_iff_right hi, eq_comm]

/-- R74: a word decodes to a command of a row with a width, for some width, exactly when the other fields are
those of the row's match. -/
theorem exists_decodeCommand_eq_ok_iff_and {w : Word} {row : BitVec 6 → Instr} {op : BitVec 4}
    {lm : BitVec 1} (hcmd : ∀ bw, (row bw).isCommand = true)
    (hrow : ∀ bw, encode (row bw) = commandWord op bw lm 0) :
    (∃ bw, decodeCommand w = .ok (row bw)) ↔ w &&& 0xFFFFFC0F = commandWord op 0 lm 0 := by
  simp only [decodeCommand_eq_ok_iff, hcmd, hrow, true_and]
  rw [and_widthMask, commandWord_eq_iff]
  constructor
  · rintro ⟨bw, rfl⟩
    simp
  · rintro ⟨hop, -, hlm, hrsv⟩
    exact ⟨bwField w, by rw [← hop, ← hlm, ← hrsv, commandWord_fields]⟩

/-- R74: the width of a command stands in bits 9:4 of its word. -/
theorem bwField_encode {i : Instr} {bw : BitVec 6} (hi : i.width = some bw) :
    bwField (encode i) = bw := by
  cases i with
  | bitpack _ | rle _ | hybP _ | hybL _ => cases hi; exact bwField_commandWord _ _ _ _
  | _ => cases hi

/-- Settles O2: the mask keeps every field but the width, and the match is the command's word with width 0. -/
theorem wordSpellsCommandByMatchAndMask : Obligations.WordSpellsCommandByMatchAndMask := by
  unfold Obligations.WordSpellsCommandByMatchAndMask
  intro w
  refine ⟨decodeCommand_eq_ok_iff_and rfl, decodeCommand_eq_ok_iff_and rfl,
    decodeCommand_eq_ok_iff_and rfl, decodeCommand_eq_ok_iff_and rfl,
    exists_decodeCommand_eq_ok_iff_and (op := 5) (lm := 0) (fun _ => rfl) (fun _ => rfl),
    exists_decodeCommand_eq_ok_iff_and (op := 6) (lm := 0) (fun _ => rfl) (fun _ => rfl),
    exists_decodeCommand_eq_ok_iff_and (op := 7) (lm := 0) (fun _ => rfl) (fun _ => rfl),
    exists_decodeCommand_eq_ok_iff_and (op := 7) (lm := 1) (fun _ => rfl) (fun _ => rfl),
    fun i bw hdec hwidth => ?_⟩
  rw [← bwField_toNat, ← (decodeCommand_eq_ok_iff.1 hdec).2, bwField_encode hwidth]

/-- Settles O5: each word is the encoding of its command or run. -/
theorem writtenWordsDecode : Obligations.WrittenWordsDecode := by
  unfold Obligations.WrittenWordsDecode
  exact ⟨decodeCommand_encode (i := .rdbyte) rfl, decodeCommand_encode (i := .rdn) rfl,
    decodeCommand_encode (i := .rdu32) rfl, decodeCommand_encode (i := .varint) rfl,
    decodeCommand_encode (i := .bitpack 3) rfl, decodeCommand_encode (i := .rle 32) rfl,
    decodeCommand_encode (i := .hybP 3) rfl, decodeCommand_encode (i := .hybL 3) rfl,
    decodeHeader_encode (i := .runRle 3) rfl, decodeHeader_encode (i := .runBp 1) rfl⟩

end Sys2Proof.Machine
end

section
/-! SUPPORT. The cursor commands and the single runs in the claims' terms (40_cursor.md R96 to R98, 41_varint.md
R102, R104, 42_bitpack.md R111, 43_rle.md R117). -/

namespace Sys2Proof.Machine

/-! ### RDBYTE, RDN and RDU32 -/

/-- Settles O6: RDBYTE reads the byte at OFF, or no byte remains. -/
theorem rdbyteReadsOneByte : Obligations.RdbyteReadsOneByte := by
  unfold Obligations.RdbyteReadsOneByte
  refine fun s => ⟨fun hfits => ?_, exec_rdbyte_short⟩
  rw [exec_rdbyte_fits hfits, BitVec.ofNat_toNat]

/-- R7, R30: the bytes that remain are fewer than 2^31, as BUF is. -/
theorem State.Inv.remaining_lt {s : State} (h : s.Inv) : s.remaining < 2 ^ 31 := by
  have hparams := h.params_legal
  have hlen := h.len_le
  simp only [Config.Params.legal, Bool.and_eq_true, decide_eq_true_eq] at hparams
  obtain ⟨⟨-, hsize⟩, -⟩ := hparams
  unfold State.remaining
  omega

/-- R97: the values RDN appends, byte by byte. -/
theorem map_setWidth_memRead (m : Memory) (a n : Nat) :
    (memRead m a n).map (fun b => b.setWidth 64) =
      (List.range n).map fun j => BitVec.ofNat 64 (Memory.byte m (a + j)).toNat := by
  simp only [memRead, List.map_map, Function.comp_def, BitVec.ofNat_toNat]

/-- Settles O7: the n bytes are there or not, and no state that meets the invariant has 2^31 of them. -/
theorem rdnAppendsTheBytes : Obligations.RdnAppendsTheBytes := by
  unfold Obligations.RdnAppendsTheBytes
  refine fun s => ⟨fun hfits => ?_, exec_rdn_short, fun hinv harg => ?_⟩
  · rw [exec_rdn_fits hfits, map_setWidth_memRead]
  · exact exec_rdn_short (hinv.remaining_lt.trans_le harg)

/-- R9: four bytes as one little-endian number. -/
theorem le_memRead_four (m : Memory) (a : Nat) :
    le (memRead m a 4) =
      (Memory.byte m a).toNat + 2 ^ 8 * (Memory.byte m (a + 1)).toNat
        + 2 ^ 16 * (Memory.byte m (a + 2)).toNat + 2 ^ 24 * (Memory.byte m (a + 3)).toNat := by
  simp only [memRead_succ, memRead_zero, le_cons, le_nil, Nat.add_assoc, Nat.reduceAdd]
  ring

/-- Settles O8: RDU32 reads the four bytes at OFF, or fewer remain. -/
theorem rdu32ReadsLittleEndian : Obligations.Rdu32ReadsLittleEndian := by
  unfold Obligations.Rdu32ReadsLittleEndian
  refine fun s => ⟨fun hfits => ?_, exec_rdu32_short⟩
  rw [exec_rdu32_fits hfits, le_memRead_four]

/-! ### VARINT -/

/-- R102: the sum of five groups fits 32 bits exactly when the fifth byte adds at most 4 bits. -/
theorem varintSum_five_lt_iff {m : Memory} {off : Nat}
    (hlast : (Memory.byte m (off + 4)).getLsbD 7 = false) :
    varintSum m off 5 < 2 ^ 32 ↔ (Memory.byte m (off + 4)).toNat ≤ 0x0F := by
  have hbyte : (Memory.byte m (off + 4)).toNat < 128 := by
    rw [← Nat.not_le, ← varintContinues_iff, varintContinues, hlast]
    exact Bool.false_ne_true
  have hlow : varintSum m off 4 < 2 ^ 28 := varintSum_lt m off 4
  rw [varintSum_succ, Nat.mod_eq_of_lt hbyte]
  omega

/-- Settles O10: VARINT reads the varint at OFF, and each byte of a varint adds a group of 7 bits. -/
theorem varintDecodesOneVarint : Obligations.VarintDecodesOneVarint := by
  unfold Obligations.VarintDecodesOneVarint
  intro s k v hv
  refine ⟨exec_varint_of_varintAt hv, fun hk => ?_, ?_⟩
  · calc varintSum s.buf s.off.toNat k < 2 ^ (7 * k) := varintSum_lt _ _ _
      _ ≤ 2 ^ 28 := Nat.pow_le_pow_right Nat.two_pos (Nat.mul_le_mul_left 7 hk)
  · rintro rfl
    obtain ⟨-, -, -, hlast, -⟩ := hv
    exact varintSum_five_lt_iff hlast

/-! ### BITPACK and RLE -/

/-- R111: BITPACK of a legal width whose body fits. -/
theorem exec_bitpack_fits {s : State} {bw : BitVec 6} (hbw : bw.toNat ≤ 32)
    (h : s.pend.arg.toNat / 2 * bw.toNat ≤ s.remaining) :
    exec (.bitpack bw) s =
      .next (s.committed (s.pend.arg.toNat / 2 * bw.toNat) 0
        ((List.range (8 * (s.pend.arg.toNat / 2))).map fun v =>
          BitVec.ofNat 64
            (unpack (memRead s.buf s.off.toNat (s.pend.arg.toNat / 2 * bw.toNat)) bw.toNat v))) := by
  have hrem : s.operand.toNat / 2 * bw.toNat ≤ curRem s.mainCursor := by
    rw [State.curRem_mainCursor]; exact h
  refine exec_of_commandOutcome_ok (lim := s.mainCursor.lim) rfl ?_
  simp only [commandOutcome, withLegalWidth_ok hbw, bitpackOutcome, bitPackRun_fits hrem,
    State.memRead_mainCursor s hrem]
  rfl

/-- Settles O14: the body is there, it is missing, or the width is refused. -/
theorem bitpackUnpacksOneRun : Obligations.BitpackUnpacksOneRun := by
  unfold Obligations.BitpackUnpacksOneRun
  exact fun s bw => ⟨exec_bitpack_fits, exec_bitpack_short, exec_width_above s rfl⟩

/-- Settles O16: the value is there, it is missing, or the width is refused. -/
theorem rleRepeatsTheWholeValue : Obligations.RleRepeatsTheWholeValue := by
  unfold Obligations.RleRepeatsTheWholeValue
  exact fun s bw => ⟨exec_rle_fits, exec_rle_short, exec_width_above s rfl⟩

end Sys2Proof.Machine
end

section
/-! SUPPORT. The hybrid commands in the claims' terms (44_hybrid.md R118 to R127), and the payload a writer lays
(30_encoding.md R81, R87). -/

namespace Sys2Proof.Machine

/-! ### HYB.L -/

/-- R121, R124: a payload that fits and is no sequence of runs. -/
theorem hybridPayload_of_not_streamOf {m : Memory} {epoch bw : Nat} {n : Word} {c : Cursor}
    (hfits : n.toNat ≤ curRem c) (hnone : ¬ ∃ vs, StreamOf m epoch bw c.off (c.off + n.toNat) vs) :
    hybridPayload m epoch bw n c = .error .truncatedInput := by
  rcases hybridPayload_cases m epoch bw n c hfits with ⟨vs, hvs, _⟩ | ⟨_, herr⟩
  · exact absurd ⟨vs, hvs⟩ hnone
  · exact herr

/-- R127: HYB.L of a legal width over a payload that fits and is no sequence of runs. -/
theorem exec_hybL_of_not_streamOf {s : State} {bw : BitVec 6} (hbw : bw.toNat ≤ 32)
    (h : s.pend.arg.toNat ≤ s.remaining)
    (hnone : ¬ ∃ vs, StreamOf s.buf s.draws bw.toNat s.mainCursor.off
      (s.mainCursor.off + s.pend.arg.toNat) vs) :
    exec (.hybL bw) s = .next (s.rolledBack 1) := by
  have hrem : s.operand.toNat ≤ curRem s.mainCursor := by rw [State.curRem_mainCursor]; exact h
  refine exec_of_commandOutcome_truncated rfl ?_
  rw [commandOutcome, withLegalWidth_ok hbw]
  exact hybridPayload_of_not_streamOf hrem hnone

/-- Settles O17: the payload is longer than what remains, it is runs back to back, or it is not. -/
theorem hybLDecodesThePayload : Obligations.HybLDecodesThePayload := by
  unfold Obligations.HybLDecodesThePayload
  exact fun s bw => ⟨fun _ => exec_hybL_of_streamOf, exec_hybL_short, exec_hybL_of_not_streamOf,
    exec_width_above s rfl⟩

/-! ### HYB.P -/

/-- R126: what remains behind the four bytes of the length. -/
theorem State.curRem_behind_length (s : State) :
    curRem { off := s.off.toNat + 4, lim := s.len.toNat } = s.remaining - 4 :=
  Nat.sub_add_eq _ _ _

/-- R126: with its length read, HYB.P of a legal width decodes the payload behind the length. -/
theorem commandOutcome_hybP {s : State} {bw : BitVec 6} {n : Word} (hbw : bw.toNat ≤ 32)
    (hn : n.toNat = le (memRead s.buf s.off.toNat 4)) (h : 4 ≤ s.remaining) :
    commandOutcome (.hybP bw) s =
      hybridPayload s.buf s.draws bw.toNat n { off := s.off.toNat + 4, lim := s.len.toNat } := by
  have hrem : 4 ≤ curRem s.mainCursor := by rw [State.curRem_mainCursor]; exact h
  rw [commandOutcome, withLegalWidth_ok hbw, hybPOutcome, curReadLE32_fits hrem,
    State.memRead_mainCursor s hrem, ← hn, BitVec.ofNat_toNat, BitVec.setWidth_eq,
    State.mainCursor_off_of_rem (by omega), State.mainCursor_lim]

/-- R126: HYB.P of a legal width over a payload that fits and is runs back to back. -/
theorem exec_hybP_of_streamOf {s : State} {bw : BitVec 6} {n : Word} {vs : List Val}
    (hn : n.toNat = le (memRead s.buf s.off.toNat 4)) (hbw : bw.toNat ≤ 32)
    (h : 4 + n.toNat ≤ s.remaining)
    (hvs : StreamOf s.buf s.draws bw.toNat (s.off.toNat + 4) (s.off.toNat + 4 + n.toNat) vs) :
    exec (.hybP bw) s = .next (s.committed (4 + n.toNat) n vs) := by
  have hrem : 0 < curRem s.mainCursor := by
    rw [State.curRem_mainCursor]; unfold State.remaining at h; omega
  refine exec_of_commandOutcome_ok (lim := s.len.toNat) rfl ?_
  rw [commandOutcome_hybP hbw hn (by omega),
    hybridPayload_of_streamOf (by rw [State.curRem_behind_length]; omega) hvs,
    State.mainCursor_off_of_rem hrem, Nat.add_assoc]

/-- R126: HYB.P of a legal width whose payload is longer than what remains behind its length. -/
theorem exec_hybP_short {s : State} {bw : BitVec 6} {n : Word}
    (hn : n.toNat = le (memRead s.buf s.off.toNat 4)) (hbw : bw.toNat ≤ 32)
    (h : s.remaining < 4 + n.toNat) : exec (.hybP bw) s = .next (s.rolledBack 1) := by
  rcases Nat.lt_or_ge s.remaining 4 with hshort | hfits
  · exact exec_hybP_prefix_short hbw hshort
  · refine exec_of_commandOutcome_truncated rfl ?_
    rw [commandOutcome_hybP hbw hn hfits,
      hybridPayload_short (by rw [State.curRem_behind_length]; omega)]

/-- R126: HYB.P of a legal width over a payload that fits and is no sequence of runs. -/
theorem exec_hybP_of_not_streamOf {s : State} {bw : BitVec 6} {n : Word}
    (hn : n.toNat = le (memRead s.buf s.off.toNat 4)) (hbw : bw.toNat ≤ 32)
    (h : 4 + n.toNat ≤ s.remaining)
    (hnone : ¬ ∃ vs, StreamOf s.buf s.draws bw.toNat (s.off.toNat + 4)
      (s.off.toNat + 4 + n.toNat) vs) :
    exec (.hybP bw) s = .next (s.rolledBack 1) := by
  refine exec_of_commandOutcome_truncated rfl ?_
  rw [commandOutcome_hybP hbw hn (by omega)]
  exact hybridPayload_of_not_streamOf (by rw [State.curRem_behind_length]; omega) hnone

/-- Settles O18: the length is missing, or the payload behind it is as for HYB.L. -/
theorem hybPDecodesThePayload : Obligations.HybPDecodesThePayload := by
  unfold Obligations.HybPDecodesThePayload
  exact fun s bw n hn => ⟨fun _ => exec_hybP_of_streamOf hn, exec_hybP_prefix_short,
    exec_hybP_short hn, exec_hybP_of_not_streamOf hn, exec_width_above s rfl⟩

/-! ### A payload as a writer lays it -/

/-- A read that gives `bs ++ cs` gives `bs` and then `cs`. -/
theorem memRead_append_eq {m : Memory} {a : Nat} {bs cs : List Byte}
    (h : memRead m a (bs ++ cs).length = bs ++ cs) :
    memRead m a bs.length = bs ∧ memRead m (a + bs.length) cs.length = cs := by
  rw [List.length_append, memRead_add] at h
  exact List.append_inj h (memRead_length _ _ _)

/-- R81, R87, R125: the bytes of a writer's runs are those runs back to back. -/
theorem streamOf_payloadBytes {m : Memory} (epoch : Nat) {bw : Nat} {runs : List Run} {off : Nat}
    (hfits : ∀ r ∈ runs, r.fits bw)
    (hmem : memRead m off (payloadBytes runs).length = payloadBytes runs) :
    StreamOf m epoch bw off (off + (payloadBytes runs).length) (payloadValues bw runs) := by
  induction runs generalizing off with
  | nil => exact .done off
  | cons r rs ih =>
    have hbytes : payloadBytes (r :: rs) = varintBytes r.header ++ (r.body ++ payloadBytes rs) := by
      rw [payloadBytes, List.flatMap_cons, List.append_assoc]; rfl
    rw [hbytes] at hmem ⊢
    obtain ⟨hheader, hrest⟩ := memRead_append_eq hmem
    obtain ⟨hbody, htail⟩ := memRead_append_eq hrest
    have hlen : r.body.length = bodyLength bw r.header := hfits r List.mem_cons_self
    rw [hlen] at hbody htail
    simp only [List.length_append, hlen]
    rw [payloadValues, List.flatMap_cons, ← hbody]
    refine .run (varintAt_varintBytes epoch hheader (by omega)) (by omega) ?_
    rw [← Nat.add_assoc, ← Nat.add_assoc]
    exact ih (fun r' hr' => hfits r' (List.mem_cons_of_mem _ hr')) htail

/-- Settles O19: the payload a writer lays is a stream of its runs, which HYB.L decodes. -/
theorem writtenRunsDecodeInOrder : Obligations.WrittenRunsDecodeInOrder := by
  unfold Obligations.WrittenRunsDecodeInOrder
  intro s bw runs hbw hfits harg hrem hmem
  rw [← State.memRead_mainCursor s (by rw [State.curRem_mainCursor]; exact hrem)] at hmem
  have hstream := streamOf_payloadBytes s.draws hfits hmem
  rw [← harg] at hrem hstream ⊢
  exact exec_hybL_of_streamOf hbw hrem hstream

end Sys2Proof.Machine
end

section
/-! SUPPORT. What the unit can leave behind a latched command: the commit of a command's outcome or a rollback
(10_state.md R22, 60_exceptions.md R136, R137), and what both leave unchanged (R141). -/

namespace Sys2Proof.Machine

/-- R22 step 2: `t` is the commit of a command's outcome in `s`, or a rollback of `s`. -/
def State.Settles (s t : State) : Prop :=
  (∃ i o, commandOutcome i s = .ok o ∧ t = s.commit o) ∨ ∃ e, t = s.rollback e

theorem settles_of_exec {i : Instr} {s t : State} (hi : i.isCommand = true)
    (h : exec i s = .next t) : s.Settles t := by
  rw [exec_command i s hi] at h
  rcases State.settle_cases h with ⟨o, ho, rfl⟩ | ⟨e, _, rfl⟩
  · exact .inl ⟨i, o, ho, rfl⟩
  · exact .inr ⟨e, rfl⟩

theorem exists_settle_eq_next (s : State) (r : Except CmdError CmdOk) : ∃ t, s.settle r = .next t := by
  cases r <;> exact ⟨_, rfl⟩

/-- R22, R76, R133: the unit's Exec always answers, with a commit or a rollback. -/
theorem exists_execLatched_eq_next (s : State) : ∃ t, execLatched s = .next t ∧ s.Settles t := by
  unfold execLatched
  split
  · next i hdec =>
    have hi := decodeFields_isCommand hdec
    obtain ⟨t, ht⟩ := exists_settle_eq_next s (commandOutcome i s)
    rw [← exec_command i s hi] at ht
    exact ⟨t, ht, settles_of_exec hi ht⟩
  · exact ⟨_, rfl, .inr ⟨_, rfl⟩⟩

theorem settles_of_execLatched {s t : State} (h : execLatched s = .next t) : s.Settles t := by
  obtain ⟨u, hu, hset⟩ := exists_execLatched_eq_next s
  rw [h] at hu
  cases hu
  exact hset

/-- R148: with nothing latched Exec is not enabled. -/
theorem unitTurn_of_idle {s : State} (h : s.pend.valid = false) : unitTurn s = .next s := by
  rw [unitTurn, if_neg (by rw [h]; exact Bool.false_ne_true)]

theorem unitTurn_of_latched {s : State} (h : s.pend.valid = true) : unitTurn s = execLatched s := by
  rw [unitTurn, if_pos h]

/-- R22, R148: the unit's move leaves the state as it is, or settles the latched command. -/
theorem unitTurn_cases {s t : State} (h : unitTurn s = .next t) :
    (s.pend.valid = false ∧ t = s) ∨ (s.pend.valid = true ∧ s.Settles t) := by
  cases hv : s.pend.valid with
  | false => rw [unitTurn_of_idle hv] at h; cases h; exact .inl ⟨rfl, rfl⟩
  | true => rw [unitTurn_of_latched hv] at h; exact .inr ⟨rfl, settles_of_execLatched h⟩

/-! ### The frame (R141) -/

section Frame

variable {s t : State} (h : s.Settles t)
include h

/-- What the commit and the rollback agree on. -/
theorem State.Settles.proj {α : Type} (f : State → α) {x : α} (hcommit : ∀ o, f (s.commit o) = x)
    (hrollback : ∀ e, f (s.rollback e) = x) : f t = x := by
  rcases h with ⟨_, o, _, rfl⟩ | ⟨e, rfl⟩
  · exact hcommit o
  · exact hrollback e

theorem State.Settles.params_eq : t.params = s.params :=
  h.proj State.params (fun _ => rfl) fun _ => rfl

theorem State.Settles.buf_eq : t.buf = s.buf :=
  h.proj State.buf (fun _ => rfl) fun _ => rfl

theorem State.Settles.cmd_eq : t.cmd = s.cmd :=
  h.proj State.cmd (fun _ => rfl) fun _ => rfl

theorem State.Settles.arg_eq : t.arg = s.arg :=
  h.proj State.arg (fun _ => rfl) fun _ => rfl

theorem State.Settles.len_eq : t.len = s.len :=
  h.proj State.len (fun _ => rfl) fun _ => rfl

theorem State.Settles.wob_eq : t.wob = s.wob :=
  h.proj State.wob (fun _ => rfl) fun _ => rfl

theorem State.Settles.pend_eq : t.pend = s.pend.clear :=
  h.proj State.pend (fun _ => rfl) fun _ => rfl

theorem State.Settles.stream_eq : t.stream = StreamRegs.idle :=
  h.proj State.stream (fun _ => rfl) fun _ => rfl

theorem State.Settles.script_eq : t.script = s.script :=
  h.proj State.script (fun _ => rfl) fun _ => rfl

theorem State.Settles.replies_eq : t.replies = s.replies :=
  h.proj State.replies (fun _ => rfl) fun _ => rfl

/-- R40, R136, R137: OUT grows at its tail, by OUTCNT values. -/
theorem State.Settles.out_eq :
    ∃ values, t.out = s.out ++ values ∧ t.outcnt = BitVec.ofNat 64 values.length := by
  rcases h with ⟨_, o, _, rfl⟩ | ⟨_, rfl⟩
  · exact ⟨o.values, rfl, rfl⟩
  · exact ⟨[], (List.append_nil _).symm, rfl⟩

theorem State.Settles.pend_valid : t.pend.valid = false := by
  rw [h.pend_eq]; rfl

end Frame

/-- Settles O26: a command commits or rolls back, and each part of the frame holds of both. -/
theorem commandFrame : Obligations.CommandFrame := by
  unfold Obligations.CommandFrame
  intro i s t hi h
  have hset := settles_of_exec hi h
  exact ⟨hset.cmd_eq, hset.arg_eq, hset.len_eq, hset.wob_eq, hset.params_eq, hset.buf_eq,
    fun a => by rw [hset.buf_eq], hset.pend_eq, hset.stream_eq, hset.script_eq, hset.replies_eq,
    hset.out_eq⟩

theorem CmdError.code_ne_zero (e : CmdError) : e.code ≠ 0 := by
  cases e <;> decide

/-- Settles O29: a command that reports no error committed, by at most the bytes from OFF to LEN. -/
theorem offAdvancesByConsumed : Obligations.OffAdvancesByConsumed := by
  unfold Obligations.OffAdvancesByConsumed
  intro i s t hinv hi h herr
  rcases exec_command_cases hi h with ⟨k, result, values, hk, rfl⟩ | ⟨e, rfl⟩
  · have hoff := State.committed_off_toNat hk result values
    have hcons : (s.committed k result values).consumed.toNat = k := by
      have hlen := s.len.isLt
      unfold State.remaining at hk
      exact (BitVec.toNat_ofNat k 32).trans (Nat.mod_eq_of_lt (by omega))
    refine ⟨by rw [hcons, hoff], fun hne => ⟨?_, hinv.len_le⟩, fun hzero => ?_⟩
    · have hpos := BitVec.toNat_pos_of_ne_zero hne
      unfold State.remaining at hk
      change _ ≤ s.len.toNat
      omega
    · rw [hzero] at hcons
      exact BitVec.eq_of_toNat_eq (by rw [hoff, ← hcons]; rfl)
  · exact absurd herr e.code_ne_zero

/-! ### The operand (R27, R157) -/

theorem settle_withArg {s t : State} {r : Except CmdError CmdOk} (x : Word)
    (h : s.settle r = .next t) : State.settle { s with arg := x } r = .next { t with arg := x } := by
  rcases State.settle_cases h with ⟨o, rfl, rfl⟩ | ⟨e, rfl, rfl⟩ <;> rfl

theorem settleRun_withArg {s t : State} {r : Except CmdError StreamRegs} (x : Word)
    (h : s.settleRun r = .next t) :
    State.settleRun { s with arg := x } r = .next { t with arg := x } := by
  cases r <;> cases h <;> rfl

/-- R27: ARG is none of what a command's outcome depends on. -/
theorem commandOutcome_withArg (i : Instr) (s : State) (x : Word) :
    commandOutcome i { s with arg := x } = commandOutcome i s :=
  commandOutcome_congr i rfl rfl rfl rfl fun _ _ _ => rfl

/-- Settles O42: a command settles one outcome whatever ARG holds, and a run takes its width from the latch. -/
theorem argWrittenLaterDoesNotMatter : Obligations.ArgWrittenLaterDoesNotMatter := by
  unfold Obligations.ArgWrittenLaterDoesNotMatter
  intro i s t x h
  cases hrun : i.isRun with
  | true =>
    rw [exec_run hrun] at h ⊢
    exact settleRun_withArg x h
  | false =>
    have hi : i.isCommand = true := by rw [Instr.isCommand, hrun]; rfl
    rw [exec_command i s hi] at h
    rw [exec_command i _ hi, commandOutcome_withArg]
    exact settle_withArg x h

end Sys2Proof.Machine
end

section
/-! SUPPORT. How many values a command appends and how large they are (10_state.md R34, R40, 20_memory.md R71).
A run header of at most four bytes is below 2^28 and every header is below 2^32, so a byte of a payload yields at
most 2^32 values. -/

namespace Sys2Proof.Machine

/-! ### The values of a run -/

theorem toNat_ofNat_lt {n : Nat} (h : n < 2 ^ 32) : (BitVec.ofNat 64 n).toNat < 2 ^ 32 :=
  (BitVec.toNat_ofNat n 64 ▸ Nat.mod_le n (2 ^ 64)).trans_lt h

/-- R40, R107: unpacked values of a legal width. -/
theorem mem_map_unpack_lt {body : List Byte} {bw n : Nat} (hbw : bw ≤ 32) {v : Val}
    (hv : v ∈ (List.range n).map fun j => BitVec.ofNat 64 (unpack body bw j)) :
    v.toNat < 2 ^ 32 := by
  obtain ⟨j, -, rfl⟩ := List.mem_map.1 hv
  exact toNat_ofNat_lt (unpack_lt_of_legal_width body hbw j)

/-- R40, R114: the repeated value of an RLE run of a legal width. -/
theorem mem_replicate_le_lt {m : Memory} {a bw n : Nat} (hbw : bw ≤ 32) {v : Val}
    (hv : v ∈ List.replicate n (BitVec.ofNat 64 (le (memRead m a ((bw + 7) / 8))))) :
    v.toNat < 2 ^ 32 := by
  rw [List.eq_of_mem_replicate hv]
  refine toNat_ofNat_lt ((le_memRead_lt m a _).trans_le ?_)
  calc 256 ^ ((bw + 7) / 8) ≤ 256 ^ 4 := Nat.pow_le_pow_right (by decide) (by omega)
    _ = 2 ^ 32 := by norm_num only

theorem mem_runValues_lt {m : Memory} {a bw : Nat} {h : Word} (hbw : bw ≤ 32) {v : Val}
    (hv : v ∈ runValues bw h (memRead m a (bodyLength bw h))) : v.toNat < 2 ^ 32 := by
  unfold runValues bodyLength at hv
  split at hv
  · exact mem_map_unpack_lt hbw hv
  · exact mem_replicate_le_lt hbw hv

theorem runValues_length_le (bw : Nat) (h : Word) (body : List Byte) :
    (runValues bw h body).length ≤ 8 * (h.toNat / 2) := by
  unfold runValues
  split
  · rw [List.length_map, List.length_range]
  · rw [List.length_replicate]; omega

/-! ### The values of a payload -/

/-- R79: four groups of 7 bits. -/
theorem VarintAt.toNat_lt {m : Memory} {epoch off lim k : Nat} {v : Word}
    (h : VarintAt m epoch off lim k v) (hk : k ≤ 4) : v.toNat < 2 ^ 28 := by
  obtain ⟨-, -, -, -, hv⟩ := h
  have hsum : varintSum m off k < 2 ^ 28 :=
    (varintSum_lt m off k).trans_le (Nat.pow_le_pow_right Nat.two_pos (Nat.mul_le_mul_left 7 hk))
  rw [if_pos ⟨by omega, hsum.trans (by decide)⟩] at hv
  rw [hv, BitVec.toNat_ofNat]
  exact (Nat.mod_le _ _).trans_lt hsum

/-- R71: a run yields at most 2^32 values for every byte of its header. -/
theorem VarintAt.runValues_length_le {m : Memory} {epoch off lim k : Nat} {h : Word}
    (hv : VarintAt m epoch off lim k h) (bw : Nat) (body : List Byte) :
    (runValues bw h body).length ≤ 2 ^ 32 * k := by
  refine (Sys2Proof.Machine.runValues_length_le bw h body).trans ?_
  have hpos := hv.pos
  have hword := h.isLt
  by_cases hk : k ≤ 4
  · have hsmall := hv.toNat_lt hk
    omega
  · omega

theorem StreamOf.length_le {m : Memory} {epoch bw off lim : Nat} {vs : List Val}
    (h : StreamOf m epoch bw off lim vs) : vs.length ≤ 2 ^ 32 * (lim - off) := by
  induction h with
  | done lim => exact Nat.zero_le _
  | @run off lim k h vs hv hbody hrest ih =>
    have hrun := hv.runValues_length_le bw (memRead m (off + k) (bodyLength bw h))
    rw [List.length_append]
    omega

theorem StreamOf.mem_lt {m : Memory} {epoch bw off lim : Nat} {vs : List Val} (hbw : bw ≤ 32)
    (h : StreamOf m epoch bw off lim vs) : ∀ v ∈ vs, v.toNat < 2 ^ 32 := by
  induction h with
  | done lim => exact fun v hv => absurd hv List.not_mem_nil
  | run hv hbody hrest ih =>
    intro v hmem
    rcases List.mem_append.1 hmem with hrun | htail
    · exact mem_runValues_lt hbw hrun
    · exact ih v htail

/-! ### The values of a command -/

/-- R34, R40: values that OUT can hold and OUTCNT can count. -/
def InBounds (vs : List Val) : Prop := vs.length < 2 ^ 63 ∧ ∀ v ∈ vs, v.toNat < 2 ^ 32

/-- Where `r` succeeds, its values are in bounds. -/
def AppendsInBounds (r : Except CmdError CmdOk) : Prop := ∀ o, r = .ok o → InBounds o.values

theorem inBounds_nil : InBounds [] := ⟨by decide, fun _ hv => absurd hv List.not_mem_nil⟩

theorem appendsInBounds_error (e : CmdError) : AppendsInBounds (.error e) := nofun

theorem appendsInBounds_ok {o : CmdOk} (h : InBounds o.values) : AppendsInBounds (.ok o) := by
  rintro _ ⟨⟩
  exact h

theorem rdbyteOutcome_inBounds (m : Memory) (c : Cursor) : AppendsInBounds (rdbyteOutcome m c) := by
  unfold rdbyteOutcome
  split
  · exact appendsInBounds_error _
  · exact appendsInBounds_ok inBounds_nil

theorem rdu32Outcome_inBounds (m : Memory) (c : Cursor) : AppendsInBounds (rdu32Outcome m c) := by
  unfold rdu32Outcome
  split
  · exact appendsInBounds_error _
  · exact appendsInBounds_ok inBounds_nil

theorem varintOutcome_inBounds (m : Memory) (epoch : Nat) (c : Cursor) :
    AppendsInBounds (varintOutcome m epoch c) := by
  unfold varintOutcome
  split
  · exact appendsInBounds_error _
  · exact appendsInBounds_ok inBounds_nil

theorem rdnOutcome_inBounds (m : Memory) (c : Cursor) (n : Word) :
    AppendsInBounds (rdnOutcome m c n) := by
  unfold rdnOutcome
  rcases Nat.lt_or_ge (curRem c) n.toNat with hshort | hfits
  · rw [curReadN_short hshort]; exact appendsInBounds_error _
  · rw [curReadN_fits hfits]
    refine appendsInBounds_ok ⟨?_, fun v hv => ?_⟩
    · simpa using n.isLt.trans (by decide)
    · obtain ⟨b, -, rfl⟩ := List.mem_map.1 hv
      rw [BitVec.toNat_setWidth_of_le (by decide)]
      exact b.isLt.trans (by decide)

theorem bitpackOutcome_inBounds (m : Memory) (c : Cursor) (h : Word) {bw : Nat} (hbw : bw ≤ 32) :
    AppendsInBounds (bitpackOutcome m c h bw) := by
  unfold bitpackOutcome
  split
  · exact appendsInBounds_error _
  · next hrun =>
    have hword := h.isLt
    rw [bitPackRun_eq_ok hrun]
    refine appendsInBounds_ok ⟨?_, fun v hv => mem_map_unpack_lt hbw hv⟩
    rw [List.length_map, List.length_range]
    omega

theorem rleOutcome_inBounds (m : Memory) (c : Cursor) (h : Word) {bw : Nat} (hbw : bw ≤ 32) :
    AppendsInBounds (rleOutcome m c h bw) := by
  unfold rleOutcome
  rcases Nat.lt_or_ge (curRem c) ((bw + 7) / 8) with hshort | hfits
  · rw [rleRun_short hshort]; exact appendsInBounds_error _
  · have hword := h.isLt
    rw [rleRun_fits hfits]
    refine appendsInBounds_ok ⟨?_, fun v hv => mem_replicate_le_lt hbw hv⟩
    rw [List.length_replicate]
    omega

/-- R71: a payload of fewer than 2^31 bytes yields fewer than 2^63 values. -/
theorem hybridPayload_inBounds (m : Memory) (epoch : Nat) {bw : Nat} (n : Word) {c : Cursor}
    (hbw : bw ≤ 32) (hc : curRem c < 2 ^ 31) : AppendsInBounds (hybridPayload m epoch bw n c) := by
  rcases Nat.lt_or_ge (curRem c) n.toNat with hshort | hfits
  · rw [hybridPayload_short hshort]; exact appendsInBounds_error _
  rcases hybridPayload_cases m epoch bw n c hfits with ⟨vs, hvs, hok⟩ | ⟨_, herr⟩
  · have hlen := hvs.length_le
    rw [Nat.add_sub_cancel_left] at hlen
    rw [hok]
    exact appendsInBounds_ok ⟨by dsimp only; omega, hvs.mem_lt hbw⟩
  · rw [herr]; exact appendsInBounds_error _

theorem hybPOutcome_inBounds (m : Memory) (epoch : Nat) {c : Cursor} {bw : Nat} (hbw : bw ≤ 32)
    (hc : curRem c < 2 ^ 31) : AppendsInBounds (hybPOutcome m epoch c bw) := by
  unfold hybPOutcome
  rcases Nat.lt_or_ge (curRem c) 4 with hshort | hfits
  · rw [curReadLE32_short hshort]; exact appendsInBounds_error _
  · rw [curReadLE32_fits hfits]
    exact hybridPayload_inBounds m epoch _ hbw (by unfold curRem at hc ⊢; dsimp only; omega)

theorem withLegalWidth_inBounds {bw : BitVec 6} {k : Nat → Except CmdError CmdOk}
    (hk : bw.toNat ≤ 32 → AppendsInBounds (k bw.toNat)) : AppendsInBounds (withLegalWidth bw k) := by
  rcases Nat.lt_or_ge 32 bw.toNat with hwide | hlegal
  · rw [withLegalWidth_error hwide]; exact appendsInBounds_error _
  · rw [withLegalWidth_ok hlegal]; exact hk hlegal

/-- R34, R40, R71: what a command appends where fewer than 2^31 bytes remain. -/
theorem commandOutcome_inBounds (i : Instr) {s : State} (hrem : s.remaining < 2 ^ 31) :
    AppendsInBounds (commandOutcome i s) := by
  have hc : curRem s.mainCursor < 2 ^ 31 := by rw [State.curRem_mainCursor]; exact hrem
  cases i with
  | rdbyte => exact rdbyteOutcome_inBounds _ _
  | rdn => exact rdnOutcome_inBounds _ _ _
  | rdu32 => exact rdu32Outcome_inBounds _ _
  | varint => exact varintOutcome_inBounds _ _ _
  | bitpack bw => exact withLegalWidth_inBounds (bitpackOutcome_inBounds _ _ _)
  | rle bw => exact withLegalWidth_inBounds (rleOutcome_inBounds _ _ _)
  | hybP bw => exact withLegalWidth_inBounds fun hbw => hybPOutcome_inBounds _ _ hbw hc
  | hybL bw => exact withLegalWidth_inBounds fun hbw => hybridPayload_inBounds _ _ _ hbw hc
  | runRle _ => exact appendsInBounds_error _
  | runBp _ => exact appendsInBounds_error _

theorem toNat_outcnt_commit {s : State} {o : CmdOk} (h : InBounds o.values) :
    (s.commit o).outcnt.toNat = o.values.length :=
  (BitVec.toNat_ofNat _ 64).trans (Nat.mod_eq_of_lt (h.1.trans (by decide)))

/-- Settles O28: the values a commit appends are in bounds, and a rollback appends none. -/
theorem outcntNeverWraps : Obligations.OutcntNeverWraps := by
  unfold Obligations.OutcntNeverWraps
  intro i s t hinv hi h
  rcases settles_of_exec hi h with ⟨j, o, ho, rfl⟩ | ⟨e, rfl⟩
  · have hbounds := commandOutcome_inBounds j hinv.remaining_lt o ho
    rw [toNat_outcnt_commit hbounds]
    exact ⟨List.length_append, hbounds.1⟩
  · exact ⟨rfl, by rw [State.rollback_outcnt]; decide⟩

end Sys2Proof.Machine
end

section
/-! SUPPORT. The invariant under each operation of the unit and the host (60_exceptions.md R129, 10_state.md
R40 to R44, 20_memory.md R49, R71). -/

namespace Sys2Proof.Machine

theorem State.pend_invalid_of_idle {s : State} (h : s.busy = false) : s.pend.valid = false := by
  simp only [State.busy, Bool.or_eq_false_iff] at h
  exact h.1

/-- R37: a latched command keeps BUSY at 1. -/
theorem State.busy_of_latched {s : State} (h : s.pend.valid = true) : s.busy = true := by
  rw [State.busy, h, Bool.true_or]

/-- R21, R56: what a host action inside the interface did. -/
theorem hostAct_cases {a : HostAction} {s t : State} (h : hostAct a s = .next t) :
    (∃ off, a = .regRead off 32 ∧ regAccessInside off 32 = true ∧ t = regRead (regAt off) s) ∨
    (∃ off d, a = .regWrite off 32 d ∧ regAccessInside off 32 = true ∧
      t = regWrite (regAt off) d s) ∨
    (∃ x b, a = .bufWrite x b ∧ t = bufWrite x b s) ∨
    (∃ x, a = .bufRead x ∧ t = bufRead x s) ∨ (a = .outPop ∧ t = outPop s) := by
  cases a with
  | regRead off width =>
    simp only [hostAct] at h
    split at h <;> cases h
    next hinside =>
    obtain rfl := regAccessInside_width hinside
    exact .inl ⟨off, rfl, hinside, rfl⟩
  | regWrite off width d =>
    simp only [hostAct] at h
    split at h <;> cases h
    next hinside =>
    obtain rfl := regAccessInside_width hinside
    exact .inr (.inl ⟨off, d, rfl, hinside, rfl⟩)
  | bufWrite x b => cases h; exact .inr (.inr (.inl ⟨x, b, rfl, rfl⟩))
  | bufRead x => cases h; exact .inr (.inr (.inr (.inl ⟨x, rfl, rfl⟩)))
  | outPop => cases h; exact .inr (.inr (.inr (.inr ⟨rfl, rfl⟩)))

theorem CmdError.code_toNat_le (e : CmdError) : e.code.toNat ≤ 3 := by
  cases e <;> decide

/-- R7: the parameters of the machine after reset are in their ranges. -/
theorem configParams_legal : Config.params.legal = true := by
  unfold Config.params Config.Params.legal
  cases Config.outDepthChoice <;> simp <;> omega

/-- R150, R151: Reset keeps the parameters and the bytes of BUF, and zeroes the rest. -/
theorem inv_resetUnit {s : State} (hparams : s.params.legal = true) (hwf : Memory.wf s.buf)
    (hlt : ∀ c ∈ s.buf, c.1 < s.params.bufSize) : s.resetUnit.Inv where
  params_legal := hparams
  len_le := Nat.zero_le _
  buf_wf := hwf
  buf_lt := hlt
  out_lt := fun _ hv => absurd hv List.not_mem_nil
  err_le := Nat.zero_le _
  failed_zero := fun herr => absurd rfl herr
  outcnt_lt := Nat.two_pow_pos 63
  stream_idle := rfl
  latched := nofun

/-! ### The operations -/

section Keeps

variable {s : State} (h : s.Inv)
include h

/-- The model's own fields, and WOB. -/
theorem State.Inv.withBookkeeping (wob : Bool) (draws : Nat) (script : List Turn)
    (replies : List Reply) :
    State.Inv { s with wob := wob, draws := draws, script := script, replies := replies } :=
  { h with }

theorem State.Inv.withScript (script : List Turn) : State.Inv { s with script := script } :=
  { h with }

theorem State.Inv.withOff (d : Word) : State.Inv { s with off := d } :=
  { h with }

/-- R27: ARG may change while nothing is latched. -/
theorem State.Inv.withArg (hidle : s.pend.valid = false) (d : Word) :
    State.Inv { s with arg := d } :=
  { h with latched := fun hv => Bool.noConfusion (hidle.symm.trans hv) }

/-- R30: LEN is clamped to BUF_SIZE. -/
theorem State.Inv.withLen (d : Word) : State.Inv { s with len := clampLen s.params d } :=
  { h with
    len_le := by
      rw [clampLen, BitVec.toNat_ofNat]
      exact (Nat.mod_le _ _).trans (Nat.min_le_right _ _) }

/-- R43: an accepted CMD write latches the fields of CMD and the value of ARG. -/
theorem State.Inv.latchCommand (d : Word) : (s.latchCommand d).Inv :=
  { h with latched := fun _ => rfl }

/-- R44, R49: a byte is written below BUF_SIZE only. -/
theorem State.Inv.withByte {a : Nat} (ha : a < s.params.bufSize) (b : Byte) :
    State.Inv { s with buf := Memory.write s.buf a b } :=
  { h with
    buf_wf := Memory.write_wf h.buf_wf a b
    buf_lt := fun c hc => by
      rcases Memory.mem_write hc with rfl | hc
      · exact ha
      · exact h.buf_lt c hc }

/-- R46: a pop leaves values that stood in OUT. -/
theorem State.Inv.withTail {v : Val} {rest : List Val} (hout : s.out = v :: rest)
    (replies : List Reply) : State.Inv { s with out := rest, replies := replies } :=
  { h with out_lt := fun w hw => h.out_lt w (by rw [hout]; exact List.mem_cons_of_mem v hw) }

/-- R42: a write that may be held off. -/
theorem State.Inv.unlessBusy {t : State} (ht : s.busy = false → t.Inv) : (s.unlessBusy t).Inv := by
  unfold State.unlessBusy
  split
  · exact h.withBookkeeping true s.draws s.script s.replies
  · next hidle => exact ht (Bool.eq_false_of_not_eq_true hidle)

/-- R136: the values of a command are in bounds. -/
theorem State.Inv.commit {o : CmdOk} (ho : InBounds o.values) : (s.commit o).Inv where
  params_legal := h.params_legal
  len_le := h.len_le
  buf_wf := h.buf_wf
  buf_lt := h.buf_lt
  out_lt := fun v hv => (List.mem_append.1 hv).elim (h.out_lt v) (ho.2 v)
  err_le := Nat.zero_le _
  failed_zero := fun herr => absurd rfl herr
  outcnt_lt := by rw [toNat_outcnt_commit ho]; exact ho.1
  stream_idle := rfl
  latched := nofun

/-- R137: a rollback zeroes RESULT, CONSUMED and OUTCNT, with a code of R129. -/
theorem State.Inv.rollback (e : CmdError) : (s.rollback e).Inv where
  params_legal := h.params_legal
  len_le := h.len_le
  buf_wf := h.buf_wf
  buf_lt := h.buf_lt
  out_lt := h.out_lt
  err_le := e.code_toNat_le
  failed_zero := fun _ => ⟨rfl, rfl, rfl⟩
  outcnt_lt := Nat.two_pow_pos 63
  stream_idle := rfl
  latched := nofun

/-! ### The turns -/

theorem State.Inv.unitTurn {t : State} (ht : Machine.unitTurn s = .next t) : t.Inv := by
  rcases unitTurn_cases ht with ⟨-, rfl⟩ | ⟨-, ⟨i, o, ho, rfl⟩ | ⟨e, rfl⟩⟩
  · exact h
  · exact h.commit (commandOutcome_inBounds i h.remaining_lt o ho)
  · exact h.rollback e

theorem State.Inv.regRead (r : Reg) : (Machine.regRead r s).Inv := by
  obtain ⟨v, n, hread⟩ := regRead_cases r s
  rw [hread]
  exact h.withBookkeeping s.wob n s.script _

theorem State.Inv.regWrite (r : Reg) (d : Word) : (Machine.regWrite r d s).Inv := by
  cases r with
  | cmd => exact h.unlessBusy fun _ => h.latchCommand d
  | arg => exact h.unlessBusy fun hidle => h.withArg (State.pend_invalid_of_idle hidle) d
  | status => exact h.withBookkeeping _ s.draws s.script s.replies
  | off => exact h.unlessBusy fun _ => h.withOff d
  | len => exact h.unlessBusy fun _ => h.withLen d
  | result | rem | consumed | outcntLo | outcntHi | bufsz | reserved => exact h

theorem State.Inv.bufWrite (a : Nat) (b : Byte) : (Machine.bufWrite a b s).Inv := by
  refine h.unlessBusy fun _ => ?_
  split
  · next ha => exact h.withByte ha b
  · exact h

theorem State.Inv.outPop : (Machine.outPop s).Inv := by
  unfold Machine.outPop
  split
  · exact h
  · next hout => exact h.withTail hout _

theorem State.Inv.hostAct {a : HostAction} {t : State} (ht : Machine.hostAct a s = .next t) :
    t.Inv := by
  rcases hostAct_cases ht with ⟨off, -, -, rfl⟩ | ⟨off, d, -, -, rfl⟩ | ⟨x, b, -, rfl⟩ |
    ⟨x, -, rfl⟩ | ⟨-, rfl⟩
  · exact h.regRead _
  · exact h.regWrite _ d
  · exact h.bufWrite x b
  · exact h.withBookkeeping s.wob s.draws s.script _
  · exact h.outPop

end Keeps

/-- Settles O53: each turn keeps the invariant. -/
theorem stepKeepsInvariant : Obligations.StepKeepsInvariant := by
  unfold Obligations.StepKeepsInvariant
  intro s t h ht
  rcases step_cases ht with ⟨rest, hunit⟩ | ⟨ahead, rest, -, rfl⟩ | ⟨rest, -, rfl⟩ |
    ⟨a, rest, -, -, hact⟩
  · exact (h.withScript rest).unitTurn hunit
  · exact (h.withScript _).regRead .status
  · exact inv_resetUnit h.params_legal h.buf_wf h.buf_lt
  · exact (h.withScript rest).hostAct hact

/-- Settles O54: the state after reset is its own Reset, and its BUF is empty. -/
theorem resetMeetsInvariant : Obligations.ResetMeetsInvariant := by
  unfold Obligations.ResetMeetsInvariant
  exact inv_resetUnit (s := State.reset) configParams_legal State.reset_buf_wf
    fun _ hc => absurd hc List.not_mem_nil

end Sys2Proof.Machine
end

section
/-! SUPPORT. What one turn of the script does, by its kind (10_state.md R20 to R22, 70_reset_and_hazards.md R150,
log 1), and the writes of the host over the register map and BUF (10_state.md R42 to R44). -/

namespace Sys2Proof.Machine

/-! ### The turns -/

theorem step_unit (s : State) (rest : List Turn) :
    step { s with script := .unit :: rest } = unitTurn { s with script := rest } := rfl

theorem step_no_turn (s : State) :
    step { s with script := [] } = unitTurn { s with script := [] } := rfl

theorem step_reset (s : State) (rest : List Turn) :
    step { s with script := .reset :: rest } =
      .next (State.resetUnit { s with script := rest }) := rfl

theorem step_wait (s : State) (ahead : Nat) (rest : List Turn) :
    step { s with script := .wait ahead :: rest } =
      .next (waitTurn ahead rest { s with script := .wait ahead :: rest }) := rfl

/-- R56: a register write inside the interface. -/
theorem step_regWrite {off : Nat} (h : regAccessInside off 32 = true) (s : State)
    (rest : List Turn) (d : Word) :
    step { s with script := .host (.regWrite off 32 d) :: rest } =
      .next (regWrite (regAt off) d { s with script := rest }) :=
  if_pos h

/-- R56: a register read inside the interface. -/
theorem step_regRead {off : Nat} (h : regAccessInside off 32 = true) (s : State)
    (rest : List Turn) :
    step { s with script := .host (.regRead off 32) :: rest } =
      .next (regRead (regAt off) { s with script := rest }) :=
  if_pos h

theorem step_bufWrite (s : State) (rest : List Turn) (x : Nat) (b : Byte) :
    step { s with script := .host (.bufWrite x b) :: rest } =
      .next (bufWrite x b { s with script := rest }) := rfl

theorem step_bufRead (s : State) (rest : List Turn) (x : Nat) :
    step { s with script := .host (.bufRead x) :: rest } =
      .next (bufRead x { s with script := rest }) := rfl

/-- R46: with a value in OUT a pop takes it. -/
theorem step_outPop {s : State} {v : Val} {vs : List Val} (h : s.out = v :: vs)
    (rest : List Turn) :
    step { s with script := .host .outPop :: rest } =
      .next { s with script := rest, out := vs, replies := s.replies ++ [.out v] } := by
  simp [step, takeTurn, hostEnabled, State.outne, hostAct, outPop, h]

/-- R46: with OUT empty the host waits and the unit moves. -/
theorem step_outPop_empty {s : State} (h : s.out = []) (rest : List Turn) :
    step { s with script := .host .outPop :: rest } =
      unitTurn { s with script := .host .outPop :: rest } := by
  simp [step, takeTurn, hostEnabled, State.outne, h]

/-- R89: a poll that reads BUSY = 0 ends the WAIT. -/
theorem waitTurn_of_idle {s : State} (h : s.busy = false) (ahead : Nat) (rest : List Turn) :
    waitTurn ahead rest s =
      { s with script := rest, replies := s.replies ++ [.reg (s.statusWord s.err)] } := by
  simp only [waitTurn, h, Bool.false_eq_true, if_false]
  exact if_neg (by rw [Bool.not_eq_true]; exact h)

/-- R89: a poll that reads BUSY = 1 leaves the WAIT. -/
theorem waitTurn_of_busy {s : State} (h : s.busy = true) (ahead : Nat) (rest : List Turn) :
    waitTurn ahead rest s =
      { s with
        script := waitAgain ahead rest
        replies := s.replies ++ [.reg (s.statusWord ((Config.draw s.draws 0).extractLsb' 0 4))]
        draws := s.draws + 1 } := by
  simp only [waitTurn, h, if_true]
  exact if_pos h

/-! ### Writes of the host -/

theorem State.unlessBusy_of_busy {s : State} (h : s.busy = true) (t : State) :
    s.unlessBusy t = s.markIgnored := if_pos h

theorem State.unlessBusy_of_idle {s : State} (h : s.busy = false) (t : State) :
    s.unlessBusy t = t := if_neg (by rw [h]; exact Bool.false_ne_true)

/-- Settles O31: the unit's turn, and an empty script, are the unit's move. -/
theorem unitStepExecutesTheLatchedCommand : Obligations.UnitStepExecutesTheLatchedCommand := by
  unfold Obligations.UnitStepExecutesTheLatchedCommand
  intro s rest
  rw [step_unit, step_no_turn]
  refine ⟨rfl, rfl, fun hv => ⟨fun i hdec => ⟨?_, ?_⟩, fun e hdec => ⟨?_, ?_⟩⟩, fun hv => ⟨?_, ?_⟩⟩
  · exact unitTurn_of_decodes (s := { s with script := rest }) hv hdec
  · exact unitTurn_of_decodes (s := { s with script := [] }) hv hdec
  · exact unitTurn_of_illegal (s := { s with script := rest }) hv hdec
  · exact unitTurn_of_illegal (s := { s with script := [] }) hv hdec
  · exact unitTurn_of_idle (s := { s with script := rest }) hv
  · exact unitTurn_of_idle (s := { s with script := [] }) hv

/-- Settles O32: BUSY = 0 accepts the write, and the latch it fills is what keeps BUSY at 1. -/
theorem acceptedCmdWriteLatches : Obligations.AcceptedCmdWriteLatches := by
  unfold Obligations.AcceptedCmdWriteLatches
  intro s d rest hidle
  refine ⟨State.latchCommand { s with script := rest } d, ?_, rfl, State.busy_of_latched rfl⟩
  rw [step_regWrite (by decide)]
  exact congrArg _ (State.unlessBusy_of_idle (s := { s with script := rest }) hidle _)

/-- Settles O33: each of these writes is held off by BUSY. -/
theorem writesWhileBusyOnlySetWob : Obligations.WritesWhileBusyOnlySetWob := by
  unfold Obligations.WritesWhileBusyOnlySetWob
  intro s rest a hbusy ha
  have hignored := State.unlessBusy_of_busy (s := { s with script := rest }) hbusy
  rcases ha with ⟨d, rfl | rfl | rfl | rfl⟩ | ⟨x, b, rfl⟩
  · rw [step_regWrite (by decide)]; exact congrArg _ (hignored _)
  · rw [step_regWrite (by decide)]; exact congrArg _ (hignored _)
  · rw [step_regWrite (by decide)]; exact congrArg _ (hignored _)
  · rw [step_regWrite (by decide)]; exact congrArg _ (hignored _)
  · rw [step_bufWrite]; exact congrArg _ (hignored _)

/-- Settles O34: BUSY = 0 holds none of these writes off. -/
theorem writesWhileIdleStore : Obligations.WritesWhileIdleStore := by
  unfold Obligations.WritesWhileIdleStore
  intro s rest d x b hidle
  have hstored := State.unlessBusy_of_idle (s := { s with script := rest }) hidle
  refine ⟨?_, ?_, ?_, fun hx => ⟨Memory.write s.buf x b, ?_, Memory.byte_write s.buf x b⟩,
    fun hx => ?_⟩
  · rw [step_regWrite (by decide)]; exact congrArg _ (hstored _)
  · rw [step_regWrite (by decide)]; exact congrArg _ (hstored _)
  · rw [step_regWrite (by decide)]; exact congrArg _ (hstored _)
  · rw [step_bufWrite, bufWrite, hstored]
    exact congrArg _ (if_pos hx)
  · rw [step_bufWrite, bufWrite, hstored]
    exact congrArg _ (if_neg (Nat.not_lt.2 hx))

/-- R36: the offsets from 0x2C are reserved. -/
theorem regAt_reserved {off : Nat} (h : 0x2C ≤ off) : regAt off = .reserved := by
  unfold regAt
  split
  iterate 11 · omega
  rfl

theorem regAccessInside_of_reserved {off : Nat} (hle : off ≤ 0xFC) (haligned : off % 4 = 0) :
    regAccessInside off 32 = true := by
  simp only [regAccessInside, Bool.and_eq_true, decide_eq_true_eq]
  exact ⟨⟨haligned, trivial⟩, by omega⟩

/-- Settles O35: a write of a read-only register or of a reserved offset is no write. -/
theorem readOnlyWritesAreIgnored : Obligations.ReadOnlyWritesAreIgnored := by
  unfold Obligations.ReadOnlyWritesAreIgnored
  intro s rest d off hoff
  rcases hoff with rfl | rfl | rfl | rfl | rfl | rfl | ⟨hge, hle, haligned⟩
  iterate 6 · exact step_regWrite (by decide) s rest d
  · rw [step_regWrite (regAccessInside_of_reserved hle haligned), regAt_reserved hge]
    rfl

end Sys2Proof.Machine
end

section
/-! SUPPORT. STATUS as a number (10_state.md R28, R37), and what the registers, BUF and OUT read as (10_state.md
R31 to R36, R41, R45, R46). -/

namespace Sys2Proof.Machine

/-! ### STATUS -/

theorem toNat_append_eq {n m : Nat} (x : BitVec n) (y : BitVec m) :
    (x ++ y).toNat = x.toNat * 2 ^ m + y.toNat := by
  rw [BitVec.toNat_append, ← Nat.shiftLeft_add_eq_or_of_lt y.isLt, Nat.shiftLeft_eq]

theorem State.outne_eq (s : State) : s.outne = decide (0 < s.out.length) := by
  unfold State.outne
  cases s.out <;> rfl

/-- R28: the fields of STATUS. -/
theorem statusWord_toNat (s : State) (e : BitVec 4) :
    (s.statusWord e).toNat =
      s.busy.toNat + 2 * s.wob.toNat + 16 * e.toNat + 256 * (decide (0 < s.out.length)).toNat := by
  simp only [State.statusWord, toNat_append_eq, BitVec.toNat_ofBool, BitVec.ofNat_eq_ofNat,
    BitVec.toNat_ofNat, Nat.zero_mod, State.outne_eq]
  ring

/-- R28: bit 0 of STATUS is BUSY. -/
theorem statusWord_getLsbD_zero (s : State) (e : BitVec 4) :
    (s.statusWord e).getLsbD 0 = s.busy := by
  have hparity : (s.statusWord e).toNat =
      s.busy.toNat + 2 * (s.wob.toNat + 8 * e.toNat + 128 * (decide (0 < s.out.length)).toNat) := by
    rw [statusWord_toNat]; ring
  rw [Bool.eq_iff_iff, getLsbD_zero_iff, hparity, Nat.add_mul_mod_self_left]
  cases s.busy <;> decide

/-- R37: OUT above OUT_DEPTH. -/
theorem outAboveDepth_iff (depth : Option Nat) (n : Nat) :
    outAboveDepth depth n = true ↔ ∃ d, depth = some d ∧ d < n := by
  cases depth <;> simp [outAboveDepth]

theorem State.busy_iff (s : State) :
    s.busy = true ↔
      s.pend.valid = true ∨ ∃ depth, s.params.outDepth = some depth ∧ depth < s.out.length := by
  rw [State.busy, Bool.or_eq_true, outAboveDepth_iff]

/-- Settles O36: the fields of STATUS stand side by side, and its write touches WOB alone. -/
theorem statusFieldsAndWrite : Obligations.StatusFieldsAndWrite := by
  unfold Obligations.StatusFieldsAndWrite
  intro s e rest d
  refine ⟨s.busy_iff, statusWord_toNat s e, ?_⟩
  rw [step_regWrite (by decide)]
  change Host.Outcome.next { s with script := rest, wob := s.wob && !d.getLsbD 1 } = _
  cases d.getLsbD 1 <;> simp

/-! ### Reads -/

/-- R31: REM as a difference of numbers. -/
theorem State.rem_eq (s : State) :
    s.rem = if s.off.toNat ≤ s.len.toNat then BitVec.ofNat 32 (s.len.toNat - s.off.toNat) else 0 := by
  unfold State.rem
  split
  · next hle =>
    refine BitVec.eq_of_toNat_eq ?_
    have hlen := s.len.isLt
    rw [BitVec.toNat_sub_of_le hle, BitVec.toNat_ofNat, Nat.mod_eq_of_lt (by omega)]
  · rfl

theorem outcntLo_eq (n : BitVec 64) : n.extractLsb' 0 32 = BitVec.ofNat 32 (n.toNat % 2 ^ 32) := by
  refine BitVec.eq_of_toNat_eq ?_
  rw [BitVec.extractLsb'_toNat, BitVec.toNat_ofNat, Nat.shiftRight_zero, Nat.mod_mod]

theorem outcntHi_eq (n : BitVec 64) : n.extractLsb' 32 32 = BitVec.ofNat 32 (n.toNat / 2 ^ 32) := by
  refine BitVec.eq_of_toNat_eq ?_
  rw [BitVec.extractLsb'_toNat, BitVec.toNat_ofNat, Nat.shiftRight_eq_div_pow]

theorem regRead_of_idle {s : State} (h : s.busy = false) (r : Reg) :
    regRead r s = { s with replies := s.replies ++ [.reg (s.readIdle r)] } :=
  if_neg (by rw [h]; exact Bool.false_ne_true)

theorem regRead_of_busy {s : State} (h : s.busy = true) (r : Reg) :
    regRead r s =
      { s with
        replies := s.replies ++ [.reg (s.readBusy (Config.draw s.draws 0) r)]
        draws := s.draws + 1 } :=
  if_pos h

/-- R41: a read of a register inside the interface while BUSY = 0. -/
theorem step_regRead_of_idle {s : State} {off : Nat} (hidle : s.busy = false)
    (h : regAccessInside off 32 = true) (rest : List Turn) :
    step { s with script := .host (.regRead off 32) :: rest } =
      .next { s with script := rest, replies := s.replies ++ [.reg (s.readIdle (regAt off))] } := by
  rw [step_regRead h, regRead_of_idle (s := { s with script := rest }) hidle]
  cases regAt off <;> rfl

/-- R41: a read of a register inside the interface while BUSY = 1. -/
theorem step_regRead_of_busy {s : State} {off : Nat} (hbusy : s.busy = true)
    (h : regAccessInside off 32 = true) (rest : List Turn) :
    step { s with script := .host (.regRead off 32) :: rest } =
      .next { s with
        script := rest
        replies := s.replies ++ [.reg (s.readBusy (Config.draw s.draws 0) (regAt off))]
        draws := s.draws + 1 } := by
  rw [step_regRead h, regRead_of_busy (s := { s with script := rest }) hbusy]
  cases regAt off <;> rfl

/-- Settles O37: every offset of the list selects its register. -/
theorem registerReadsWhileIdle : Obligations.RegisterReadsWhileIdle := by
  unfold Obligations.RegisterReadsWhileIdle
  rintro s rest ⟨off, v⟩ hidle hp
  rw [← State.rem_eq, ← outcntLo_eq, ← outcntHi_eq] at hp
  simp only [List.mem_cons, List.not_mem_nil, or_false, Prod.mk.injEq] at hp ⊢
  rcases hp with (⟨rfl, rfl⟩ | ⟨rfl, rfl⟩ | ⟨rfl, rfl⟩ | ⟨rfl, rfl⟩ | ⟨rfl, rfl⟩ | ⟨rfl, rfl⟩ |
    ⟨rfl, rfl⟩ | ⟨rfl, rfl⟩ | ⟨rfl, rfl⟩ | ⟨rfl, rfl⟩ | ⟨rfl, rfl⟩) | ⟨hge, hle, haligned, rfl⟩
  iterate 11 · exact step_regRead_of_idle hidle (by decide) rest
  · rw [step_regRead_of_idle hidle (regAccessInside_of_reserved hle haligned), regAt_reserved hge]
    rfl

/-- Settles O38: every offset of the list selects its register, and the drawn ones are those of R41. -/
theorem registerReadsWhileBusy : Obligations.RegisterReadsWhileBusy := by
  unfold Obligations.RegisterReadsWhileBusy
  rintro s rest ⟨off, v⟩ hbusy hp
  simp only [List.mem_cons, List.not_mem_nil, or_false, Prod.mk.injEq] at hp ⊢
  rcases hp with (⟨rfl, rfl⟩ | ⟨rfl, rfl⟩ | ⟨rfl, rfl⟩ | ⟨rfl, rfl⟩ | ⟨rfl, rfl⟩ | ⟨rfl, rfl⟩ |
    ⟨rfl, rfl⟩ | ⟨rfl, rfl⟩ | ⟨rfl, rfl⟩ | ⟨rfl, rfl⟩ | ⟨rfl, rfl⟩) | ⟨hge, hle, haligned, rfl⟩
  iterate 11 · exact step_regRead_of_busy hbusy (by decide) rest
  · rw [step_regRead_of_busy hbusy (regAccessInside_of_reserved hle haligned), regAt_reserved hge]
    rfl

/-- Settles O39: BufRead is one turn of the host, and it looks at BUF alone. -/
theorem bufReadReturnsTheByte : Obligations.BufReadReturnsTheByte := by
  unfold Obligations.BufReadReturnsTheByte
  exact step_bufRead

/-- Settles O40: OutPop is enabled exactly with a value in OUT, and leaves the move to the unit otherwise. -/
theorem outPopTakesTheHeadOrWaits : Obligations.OutPopTakesTheHeadOrWaits := by
  unfold Obligations.OutPopTakesTheHeadOrWaits
  refine fun s rest v vs => ⟨fun hout => step_outPop hout rest, fun hout hv => ?_, fun hout hv => ?_⟩
  · rw [step_outPop_empty hout]
    exact unitTurn_of_latched (s := { s with script := .host .outPop :: rest }) hv
  · rw [step_outPop_empty hout]
    exact unitTurn_of_idle (s := { s with script := .host .outPop :: rest }) hv

/-- Settles O58: a poll is a read of STATUS, and its bit 0 decides what is left of the WAIT. -/
theorem waitPollsUntilBusyReadsZero : Obligations.WaitPollsUntilBusyReadsZero := by
  unfold Obligations.WaitPollsUntilBusyReadsZero
  intro s rest ahead
  refine ⟨statusWord_getLsbD_zero s, fun hidle => ?_, fun hbusy => ⟨?_, ?_⟩⟩
  · rw [step_wait, waitTurn_of_idle (s := { s with script := .wait ahead :: rest }) hidle]
    rfl
  · rw [step_wait, waitTurn_of_busy (s := { s with script := .wait 0 :: rest }) hbusy]
    rfl
  · rw [step_wait, waitTurn_of_busy (s := { s with script := .wait (ahead + 1) :: rest }) hbusy]
    rfl

/-! ### Reset -/

/-- R151: STATUS reads 0 after Reset. -/
theorem statusWord_resetUnit (s : State) : s.resetUnit.statusWord 0 = 0 := by
  have hbusy : s.resetUnit.busy = false := by
    rw [← Bool.not_eq_true, State.busy_iff]
    rintro (hv | ⟨depth, -, hlt⟩)
    · exact Bool.false_ne_true hv
    · exact Nat.not_lt_zero depth hlt
  refine BitVec.eq_of_toNat_eq ?_
  rw [statusWord_toNat, hbusy]
  rfl

/-- R31, R151: REM reads 0 after Reset. -/
theorem rem_resetUnit (s : State) : s.resetUnit.rem = 0 := by
  rw [State.rem_eq, State.resetUnit_off, State.resetUnit_len]
  decide

/-- Settles O43: Reset sets all but the parameters, BUF and the model's own fields to their reset values. -/
theorem resetSetsEveryRegister : Obligations.ResetSetsEveryRegister := by
  unfold Obligations.ResetSetsEveryRegister
  intro s rest
  exact ⟨_, step_reset s rest, rfl, rfl, statusWord_resetUnit _, rfl, rfl, rfl, rfl, rfl,
    rem_resetUnit _, rfl, rfl, rfl, rfl, rfl, fun _ => rfl, rfl⟩

/-- Settles O44: the state after power-up is its own Reset, and nothing is written in its BUF. -/
theorem powerUpState : Obligations.PowerUpState := by
  unfold Obligations.PowerUpState
  exact ⟨rfl, rfl, statusWord_resetUnit State.reset, rfl, rfl, rfl, rem_resetUnit State.reset, rfl,
    rfl, rfl, rfl, fun _ => rfl⟩

end Sys2Proof.Machine
end

section
/-! SUPPORT. What a step refuses (20_memory.md R56), and what each turn does to OUT, WOB and the input of a latched
command (10_state.md R28, R40, R44, 20_memory.md R62, R66). -/

namespace Sys2Proof.Machine

/-! ### Steps that are refused -/

theorem step_of_host {s : State} {a : HostAction} {rest : List Turn} (hs : s.script = .host a :: rest)
    (h : hostEnabled a s = true) : step s = hostAct a { s with script := rest } := by
  simp only [step, takeTurn, hs, h, if_true]

/-- R133: the unit's move always answers. -/
theorem exists_unitTurn_eq_next (s : State) : ∃ t, unitTurn s = .next t := by
  cases hv : s.pend.valid with
  | false => exact ⟨s, unitTurn_of_idle hv⟩
  | true =>
    obtain ⟨t, ht, -⟩ := exists_execLatched_eq_next s
    exact ⟨t, (unitTurn_of_latched hv).trans ht⟩

theorem unitTurn_ne_refused (s : State) (r : Refusal) : unitTurn s ≠ .refused r := by
  obtain ⟨t, ht⟩ := exists_unitTurn_eq_next s
  rw [ht]
  nofun

theorem regAccessInside_iff (off width : Nat) :
    regAccessInside off width = true ↔ off % 4 = 0 ∧ width = 32 ∧ off < 256 := by
  simp only [regAccessInside, Bool.and_eq_true, decide_eq_true_eq, and_assoc]

/-- R56: a host action is refused exactly as a register access outside the interface. -/
theorem hostAct_eq_refused_iff (a : HostAction) (s : State) (r : Refusal) :
    hostAct a s = .refused r ↔
      r = .registerAccessOutsideInterface ∧ ∃ off width,
        (a = .regRead off width ∨ ∃ d, a = .regWrite off width d) ∧
          ¬ regAccessInside off width = true := by
  constructor
  · intro h
    cases a with
    | regRead off width =>
      simp only [hostAct] at h
      split at h <;> cases h
      next hout => exact ⟨rfl, off, width, .inl rfl, hout⟩
    | regWrite off width d =>
      simp only [hostAct] at h
      split at h <;> cases h
      next hout => exact ⟨rfl, off, width, .inr ⟨d, rfl⟩, hout⟩
    | bufWrite _ _ | bufRead _ | outPop => cases h
  · rintro ⟨rfl, off, width, rfl | ⟨d, rfl⟩, hout⟩
    · exact if_neg hout
    · exact if_neg hout

/-- R133: a refused step is a refused host action. -/
theorem hostAct_refused_of_step {s : State} {r : Refusal} (h : step s = .refused r) :
    ∃ a rest, s.script = .host a :: rest ∧ hostAct a { s with script := rest } = .refused r := by
  unfold step takeTurn at h
  split at h
  · exact absurd h (unitTurn_ne_refused _ r)
  · exact absurd h (unitTurn_ne_refused _ r)
  · cases h
  · cases h
  · next a rest hs =>
    split at h
    · exact ⟨a, rest, hs, h⟩
    · exact absurd h (unitTurn_ne_refused _ r)

/-- Settles O41: only a host action can be refused, and only for where and how wide its access is. -/
theorem onlyAccessesOutsideTheInterfaceAreRefused :
    Obligations.OnlyAccessesOutsideTheInterfaceAreRefused := by
  unfold Obligations.OnlyAccessesOutsideTheInterfaceAreRefused
  intro s r
  simp only [← regAccessInside_iff]
  constructor
  · intro h
    obtain ⟨a, rest, hs, hact⟩ := hostAct_refused_of_step h
    obtain ⟨hr, off, width, ha, hout⟩ := (hostAct_eq_refused_iff a _ r).1 hact
    refine ⟨hr, off, width, rest, ha.imp ?_ ?_, hout⟩
    · rintro rfl; exact hs
    · rintro ⟨d, rfl⟩; exact ⟨d, hs⟩
  · rintro ⟨hr, off, width, rest, hs | ⟨d, hs⟩, hout⟩
    · rw [step_of_host hs rfl]
      exact (hostAct_eq_refused_iff _ _ r).2 ⟨hr, off, width, .inl rfl, hout⟩
    · rw [step_of_host hs rfl]
      exact (hostAct_eq_refused_iff _ _ r).2 ⟨hr, off, width, .inr ⟨d, rfl⟩, hout⟩

/-! ### What a write may touch -/

/-- R42: what neither WOB nor the write itself touches. -/
theorem State.unlessBusy_proj {α : Type} (f : State → α) {s t : State}
    (hmark : f s.markIgnored = f s) (ht : f t = f s) : f (s.unlessBusy t) = f s := by
  unfold State.unlessBusy
  split
  · exact hmark
  · exact ht

theorem regWrite_out (r : Reg) (d : Word) (s : State) : (regWrite r d s).out = s.out := by
  cases r with
  | cmd | arg | off | len => exact State.unlessBusy_proj State.out rfl rfl
  | _ => rfl

theorem regWrite_params (r : Reg) (d : Word) (s : State) : (regWrite r d s).params = s.params := by
  cases r with
  | cmd | arg | off | len => exact State.unlessBusy_proj State.params rfl rfl
  | _ => rfl

theorem regWrite_script (r : Reg) (d : Word) (s : State) : (regWrite r d s).script = s.script := by
  cases r with
  | cmd | arg | off | len => exact State.unlessBusy_proj State.script rfl rfl
  | _ => rfl

/-- R44: a write of BUF changes BUF or sets WOB. -/
theorem bufWrite_cases (x : Nat) (b : Byte) (s : State) :
    (s.busy = true ∧ bufWrite x b s = s.markIgnored) ∨
      (s.busy = false ∧ ∃ m, bufWrite x b s = { s with buf := m }) := by
  cases hbusy : s.busy with
  | true => exact .inl ⟨rfl, State.unlessBusy_of_busy hbusy _⟩
  | false =>
    rw [bufWrite, State.unlessBusy_of_idle hbusy]
    split
    · exact .inr ⟨rfl, _, rfl⟩
    · exact .inr ⟨rfl, s.buf, rfl⟩

theorem bufWrite_proj {α : Type} (f : State → α) {s : State} (x : Nat) (b : Byte)
    (hmark : f s.markIgnored = f s) (hbuf : ∀ m, f { s with buf := m } = f s) :
    f (bufWrite x b s) = f s := by
  rcases bufWrite_cases x b s with ⟨-, h⟩ | ⟨-, m, h⟩
  · rw [h, hmark]
  · rw [h, hbuf]

/-- R46: a pop takes the head of OUT, if there is one, and touches nothing else of the unit. -/
theorem outPop_cases (s : State) :
    outPop s = s ∨ ∃ v rest, s.out = v :: rest ∧
      outPop s = { s with out := rest, replies := s.replies ++ [.out v] } := by
  unfold outPop
  split
  · exact .inl rfl
  · next v rest hout => exact .inr ⟨v, rest, hout, rfl⟩

/-- R21: a host action leaves the parameters and the turns to come. -/
theorem hostAct_params_script {a : HostAction} {s t : State} (h : hostAct a s = .next t) :
    t.params = s.params ∧ t.script = s.script := by
  rcases hostAct_cases h with ⟨off, -, -, rfl⟩ | ⟨off, d, -, -, rfl⟩ | ⟨x, b, -, rfl⟩ |
    ⟨x, -, rfl⟩ | ⟨-, rfl⟩
  · obtain ⟨v, n, hread⟩ := regRead_cases (regAt off) s
    rw [hread]
    exact ⟨rfl, rfl⟩
  · exact ⟨regWrite_params _ d s, regWrite_script _ d s⟩
  · exact ⟨bufWrite_proj State.params x b rfl fun _ => rfl,
      bufWrite_proj State.script x b rfl fun _ => rfl⟩
  · exact ⟨rfl, rfl⟩
  · rcases outPop_cases s with hpop | ⟨v, rest, -, hpop⟩ <;> rw [hpop] <;> exact ⟨rfl, rfl⟩

/-! ### OUT -/

/-- R21, R46: a host action leaves OUT, or is the pop of its head. -/
theorem hostAct_out {a : HostAction} {s t : State} (h : hostAct a s = .next t) :
    t.out = s.out ∨ (a = .outPop ∧ ∃ v, s.out = v :: t.out) := by
  rcases hostAct_cases h with ⟨off, -, -, rfl⟩ | ⟨off, d, -, -, rfl⟩ | ⟨x, b, -, rfl⟩ |
    ⟨x, -, rfl⟩ | ⟨rfl, rfl⟩
  · obtain ⟨v, n, hread⟩ := regRead_cases (regAt off) s
    exact .inl (by rw [hread])
  · exact .inl (regWrite_out _ d s)
  · exact .inl (bufWrite_proj State.out x b rfl fun _ => rfl)
  · exact .inl rfl
  · rcases outPop_cases s with hpop | ⟨v, rest, hout, hpop⟩
    · exact .inl (by rw [hpop])
    · exact .inr ⟨rfl, v, by rw [hpop, hout]⟩

theorem unitTurn_out {s t : State} (h : unitTurn s = .next t) : ∃ values, t.out = s.out ++ values := by
  rcases unitTurn_cases h with ⟨-, rfl⟩ | ⟨-, hset⟩
  · exact ⟨[], (List.append_nil _).symm⟩
  · obtain ⟨values, hout, -⟩ := hset.out_eq
    exact ⟨values, hout⟩

/-- R89: a poll of a WAIT leaves OUT. -/
theorem waitTurn_out (ahead : Nat) (rest : List Turn) (s : State) :
    (waitTurn ahead rest s).out = s.out := by
  obtain ⟨v, n, hwait⟩ := waitTurn_cases ahead rest s
  rw [hwait]

/-- Settles O50: the unit appends, a host action other than a pop and a WAIT leave OUT. -/
theorem outIsAQueue : Obligations.OutIsAQueue := by
  unfold Obligations.OutIsAQueue
  intro s t h
  rcases step_cases h with ⟨rest, hunit⟩ | ⟨ahead, rest, -, rfl⟩ | ⟨rest, hs, rfl⟩ |
    ⟨a, rest, hs, -, hact⟩
  · exact .inl (unitTurn_out (s := { s with script := rest }) hunit)
  · exact .inl ⟨[], by rw [waitTurn_out, List.append_nil]⟩
  · exact .inr (.inr ⟨rfl, rest, hs⟩)
  · rcases hostAct_out hact with hout | ⟨rfl, v, hout⟩
    · exact .inl ⟨[], by rw [hout, List.append_nil]⟩
    · exact .inr (.inl ⟨v, rest, hs, hout⟩)

/-! ### WOB -/

/-- R25: the offset of a register of the map. -/
def Reg.offset : Reg → Nat
  | .cmd => 0x00
  | .arg => 0x04
  | .status => 0x08
  | .result => 0x0C
  | .off => 0x10
  | .len => 0x14
  | .rem => 0x18
  | .consumed => 0x1C
  | .outcntLo => 0x20
  | .outcntHi => 0x24
  | .bufsz => 0x28
  | .reserved => 0x2C

theorem eq_offset_of_regAt {off : Nat} {r : Reg} (h : regAt off = r) (hr : r ≠ .reserved) :
    off = r.offset := by
  unfold regAt at h
  split at h
  iterate 11 · subst h; rfl
  · exact absurd h.symm hr

/-- R28, R42: what a register write does to WOB. -/
theorem regWrite_wob (r : Reg) (d : Word) (s : State) :
    (regWrite r d s).wob = s.wob ∨
      ((regWrite r d s).wob = true ∧ s.busy = true ∧ (r = .cmd ∨ r = .arg ∨ r = .off ∨ r = .len)) ∨
      ((regWrite r d s).wob = false ∧ d.getLsbD 1 = true ∧ r = .status) := by
  cases r with
  | cmd | arg | off | len =>
    cases hbusy : s.busy with
    | true =>
      exact .inr (.inl ⟨congrArg State.wob (State.unlessBusy_of_busy hbusy _), rfl, by decide⟩)
    | false =>
      exact .inl (by simp only [regWrite, State.unlessBusy_of_idle hbusy, State.latchCommand_wob])
  | status =>
    have hwob : (regWrite .status d s).wob = (s.wob && !d.getLsbD 1) := rfl
    cases hbit : d.getLsbD 1 with
    | true => exact .inr (.inr ⟨by rw [hwob, hbit, Bool.not_true, Bool.and_false], rfl, rfl⟩)
    | false => exact .inl (by rw [hwob, hbit, Bool.not_false, Bool.and_true])
  | _ => exact .inl rfl

/-- R28, R42, R44: what a host action does to WOB. -/
theorem hostAct_wob {a : HostAction} {s t : State} (h : hostAct a s = .next t) :
    t.wob = s.wob ∨
      (t.wob = true ∧ s.busy = true ∧
        ((∃ d, a = .regWrite 0x00 32 d ∨ a = .regWrite 0x04 32 d ∨ a = .regWrite 0x10 32 d ∨
          a = .regWrite 0x14 32 d) ∨ ∃ x b, a = .bufWrite x b)) ∨
      (t.wob = false ∧ ∃ d : Word, d.getLsbD 1 = true ∧ a = .regWrite 0x08 32 d) := by
  rcases hostAct_cases h with ⟨off, -, -, rfl⟩ | ⟨off, d, rfl, -, rfl⟩ | ⟨x, b, rfl, rfl⟩ |
    ⟨x, -, rfl⟩ | ⟨-, rfl⟩
  · obtain ⟨v, n, hread⟩ := regRead_cases (regAt off) s
    exact .inl (by rw [hread])
  · rcases regWrite_wob (regAt off) d s with hkept | ⟨hrises, hbusy, hr⟩ | ⟨hfalls, hbit, hr⟩
    · exact .inl hkept
    · refine .inr (.inl ⟨hrises, hbusy, .inl ⟨d, ?_⟩⟩)
      rcases hr with hr | hr | hr | hr <;> rw [eq_offset_of_regAt hr nofun]
      · exact .inl rfl
      · exact .inr (.inl rfl)
      · exact .inr (.inr (.inl rfl))
      · exact .inr (.inr (.inr rfl))
    · exact .inr (.inr ⟨hfalls, d, hbit, by rw [eq_offset_of_regAt hr nofun]; rfl⟩)
  · rcases bufWrite_cases x b s with ⟨hbusy, hmark⟩ | ⟨-, m, hstored⟩
    · exact .inr (.inl ⟨by rw [hmark]; rfl, hbusy, .inr ⟨x, b, rfl⟩⟩)
    · exact .inl (by rw [hstored])
  · exact .inl rfl
  · rcases outPop_cases s with hpop | ⟨v, rest, -, hpop⟩ <;> exact .inl (by rw [hpop])

theorem unitTurn_wob {s t : State} (h : unitTurn s = .next t) : t.wob = s.wob := by
  rcases unitTurn_cases h with ⟨-, rfl⟩ | ⟨-, hset⟩
  · rfl
  · exact hset.wob_eq

/-- Settles O48: of the turns, a host action alone and Reset touch WOB. -/
theorem wobChangesOnlyByItsRules : Obligations.WobChangesOnlyByItsRules := by
  unfold Obligations.WobChangesOnlyByItsRules
  intro s t h hne
  rcases step_cases h with ⟨rest, hunit⟩ | ⟨ahead, rest, -, rfl⟩ | ⟨rest, hs, rfl⟩ |
    ⟨a, rest, hs, -, hact⟩
  · exact absurd (unitTurn_wob hunit) hne
  · obtain ⟨v, n, hwait⟩ := waitTurn_cases ahead rest s
    exact absurd (by rw [hwait]) hne
  · exact .inr ⟨rfl, rest, .inr hs⟩
  · rcases hostAct_wob hact with hkept | ⟨hrises, hbusy, ha⟩ | ⟨hfalls, d, hbit, rfl⟩
    · exact absurd hkept hne
    · refine .inl ⟨hrises, hbusy, rest, ?_⟩
      rcases ha with ⟨d, ha⟩ | ⟨x, b, rfl⟩
      · refine .inl ⟨d, ?_⟩
        rcases ha with rfl | rfl | rfl | rfl
        · exact .inl hs
        · exact .inr (.inl hs)
        · exact .inr (.inr (.inl hs))
        · exact .inr (.inr (.inr hs))
      · exact .inr ⟨x, b, hs⟩
    · exact .inr ⟨hfalls, rest, .inl ⟨d, hbit, hs⟩⟩

/-! ### The input of a latched command -/

theorem regWrite_of_busy {s : State} (h : s.busy = true) (r : Reg) (d : Word) :
    ∃ wob, regWrite r d s = { s with wob := wob } := by
  cases r with
  | cmd | arg | off | len => exact ⟨true, State.unlessBusy_of_busy h _⟩
  | status => exact ⟨_, rfl⟩
  | _ => exact ⟨s.wob, rfl⟩

/-- R42, R44: while BUSY = 1 a host action changes at most WOB and OUT, beside the model's own fields. -/
theorem hostAct_of_busy {a : HostAction} {s t : State} (hbusy : s.busy = true)
    (h : hostAct a s = .next t) :
    ∃ wob out draws replies,
      t = { s with wob := wob, out := out, draws := draws, replies := replies } := by
  rcases hostAct_cases h with ⟨off, -, -, rfl⟩ | ⟨off, d, -, -, rfl⟩ | ⟨x, b, -, rfl⟩ |
    ⟨x, -, rfl⟩ | ⟨-, rfl⟩
  · obtain ⟨v, n, hread⟩ := regRead_cases (regAt off) s
    exact ⟨s.wob, s.out, n, _, hread⟩
  · obtain ⟨wob, hwrite⟩ := regWrite_of_busy hbusy (regAt off) d
    exact ⟨wob, s.out, s.draws, s.replies, hwrite⟩
  · exact ⟨true, s.out, s.draws, s.replies, State.unlessBusy_of_busy hbusy _⟩
  · exact ⟨s.wob, s.out, s.draws, _, rfl⟩
  · rcases outPop_cases s with hpop | ⟨v, rest, -, hpop⟩
    · exact ⟨s.wob, s.out, s.draws, s.replies, hpop⟩
    · exact ⟨s.wob, rest, s.draws, _, hpop⟩

/-- Settles O47: the host's writes are held off while a command is latched, and the unit's Exec ends the
latch. -/
theorem inputStandsWhileLatched : Obligations.InputStandsWhileLatched := by
  unfold Obligations.InputStandsWhileLatched
  intro s t hv h
  rcases step_cases h with ⟨rest, hunit⟩ | ⟨ahead, rest, -, rfl⟩ | ⟨rest, hs, rfl⟩ |
    ⟨a, rest, -, -, hact⟩
  · rw [unitTurn_of_latched (s := { s with script := rest }) hv] at hunit
    have hset := settles_of_execLatched hunit
    exact ⟨hset.buf_eq, .inl hset.len_eq, fun hv' => by rw [hset.pend_valid] at hv'; cases hv'⟩
  · obtain ⟨v, n, hwait⟩ := waitTurn_cases ahead rest s
    rw [hwait]
    exact ⟨rfl, .inl rfl, fun _ => ⟨rfl, rfl, rfl, rfl, rfl⟩⟩
  · exact ⟨rfl, .inr ⟨rest, hs⟩, nofun⟩
  · obtain ⟨wob, out, draws, replies, rfl⟩ :=
      hostAct_of_busy (s := { s with script := rest }) (State.busy_of_latched hv) hact
    exact ⟨rfl, .inl rfl, fun _ => ⟨rfl, rfl, rfl, rfl, rfl⟩⟩

end Sys2Proof.Machine
end

section
/-! SUPPORT. With no command latched the fields of PEND but `valid` are never read (10_state.md R38): each turn does
the same whatever they hold, and leaves them or sets them (70_reset_and_hazards.md R151). -/

namespace Sys2Proof.Machine

/-- The same state with another latch. -/
def State.withPend (s : State) (p : Pend) : State := { s with pend := p }

@[simp] theorem State.withPend_out (s : State) (p : Pend) : (s.withPend p).out = s.out := rfl
@[simp] theorem State.withPend_script (s : State) (p : Pend) :
    (s.withPend p).script = s.script := rfl

/-! ### The actions -/

section WithPend

variable {s : State} {p : Pend} (hv : p.valid = s.pend.valid)
include hv

theorem State.busy_withPend : (s.withPend p).busy = s.busy :=
  congrArg (· || outAboveDepth s.params.outDepth s.out.length) hv

theorem State.statusWord_withPend (e : BitVec 4) : (s.withPend p).statusWord e = s.statusWord e := by
  unfold State.statusWord
  rw [State.busy_withPend hv]
  rfl

theorem State.readIdle_withPend (r : Reg) : (s.withPend p).readIdle r = s.readIdle r := by
  cases r with
  | status => exact State.statusWord_withPend hv _
  | _ => rfl

theorem State.readBusy_withPend (drawn : Word) (r : Reg) :
    (s.withPend p).readBusy drawn r = s.readBusy drawn r := by
  cases r with
  | status => exact State.statusWord_withPend hv _
  | _ => rfl

theorem regRead_withPend (r : Reg) : regRead r (s.withPend p) = (regRead r s).withPend p := by
  unfold regRead
  rw [State.busy_withPend hv, State.readIdle_withPend hv, State.readBusy_withPend hv]
  split <;> rfl

theorem waitTurn_withPend (ahead : Nat) (rest : List Turn) :
    waitTurn ahead rest (s.withPend p) = (waitTurn ahead rest s).withPend p := by
  unfold waitTurn
  rw [State.busy_withPend hv]
  exact regRead_withPend
    (s := { s with script := if s.busy then waitAgain ahead rest else rest }) hv .status

theorem State.unlessBusy_withPend (t : State) :
    (s.withPend p).unlessBusy (t.withPend p) = (s.unlessBusy t).withPend p := by
  unfold State.unlessBusy
  rw [State.busy_withPend hv]
  split <;> rfl

/-- R43: of the register writes an accepted CMD write alone sets the latch. -/
theorem regWrite_withPend (r : Reg) (d : Word) :
    regWrite r d (s.withPend p) = regWrite r d s ∨
      (regWrite r d (s.withPend p) = (regWrite r d s).withPend p ∧
        (regWrite r d s).pend = s.pend) := by
  have hbusy' : (s.withPend p).busy = s.busy := State.busy_withPend hv
  cases r with
  | cmd =>
    cases hbusy : s.busy with
    | true =>
      rw [hbusy] at hbusy'
      simp only [regWrite, State.unlessBusy_of_busy hbusy, State.unlessBusy_of_busy hbusy']
      exact .inr ⟨rfl, rfl⟩
    | false =>
      rw [hbusy] at hbusy'
      simp only [regWrite, State.unlessBusy_of_idle hbusy, State.unlessBusy_of_idle hbusy']
      exact .inl rfl
  | arg =>
    exact .inr ⟨State.unlessBusy_withPend hv { s with arg := d },
      State.unlessBusy_proj State.pend rfl rfl⟩
  | off =>
    exact .inr ⟨State.unlessBusy_withPend hv { s with off := d },
      State.unlessBusy_proj State.pend rfl rfl⟩
  | len =>
    exact .inr ⟨State.unlessBusy_withPend hv { s with len := clampLen s.params d },
      State.unlessBusy_proj State.pend rfl rfl⟩
  | _ => exact .inr ⟨rfl, rfl⟩

theorem bufWrite_withPend (x : Nat) (b : Byte) :
    bufWrite x b (s.withPend p) = (bufWrite x b s).withPend p := by
  unfold bufWrite
  rw [← State.unlessBusy_withPend hv]
  refine congrArg _ ?_
  change (if x < s.params.bufSize then _ else _) = _
  split <;> rfl

omit hv in
theorem outPop_withPend : outPop (s.withPend p) = (outPop s).withPend p := by
  unfold outPop
  rw [State.withPend_out]
  split <;> rfl

/-- R21, R38: a host action sets the latch the same way, or leaves it. -/
theorem hostAct_withPend {a : HostAction} {t : State} (h : hostAct a s = .next t) :
    hostAct a (s.withPend p) = .next t ∨
      (hostAct a (s.withPend p) = .next (t.withPend p) ∧ t.pend = s.pend) := by
  rcases hostAct_cases h with ⟨off, rfl, hinside, rfl⟩ | ⟨off, d, rfl, hinside, rfl⟩ |
    ⟨x, b, rfl, rfl⟩ | ⟨x, rfl, rfl⟩ | ⟨rfl, rfl⟩
  · refine .inr ⟨(if_pos hinside).trans (congrArg _ (regRead_withPend hv _)), ?_⟩
    obtain ⟨v, n, hread⟩ := regRead_cases (regAt off) s
    rw [hread]
  · rcases regWrite_withPend hv (regAt off) d with hsame | ⟨hkept, hpend⟩
    · exact .inl ((if_pos hinside).trans (congrArg _ hsame))
    · exact .inr ⟨(if_pos hinside).trans (congrArg _ hkept), hpend⟩
  · exact .inr ⟨congrArg _ (bufWrite_withPend hv x b),
      bufWrite_proj State.pend x b rfl fun _ => rfl⟩
  · exact .inr ⟨rfl, rfl⟩
  · refine .inr ⟨congrArg _ outPop_withPend, ?_⟩
    rcases outPop_cases s with hpop | ⟨v, rest, -, hpop⟩ <;> rw [hpop]

end WithPend

/-! ### The step -/

/-- R148: with nothing latched the unit's move leaves the latch. -/
theorem unitTurn_withPend {s t : State} {p : Pend} (hidle : s.pend.valid = false)
    (hp : p.valid = false) (h : unitTurn s = .next t) :
    unitTurn (s.withPend p) = .next (t.withPend p) ∧ t.pend = s.pend := by
  rw [unitTurn_of_idle hidle] at h
  cases h
  exact ⟨unitTurn_of_idle hp, rfl⟩

/-- R38: a step with nothing latched sets the latch the same way whatever its stale fields are, or leaves it. -/
theorem step_withPend {s t : State} {p : Pend} (hidle : s.pend.valid = false)
    (hp : p.valid = false) (h : step s = .next t) :
    step (s.withPend p) = .next t ∨
      (step (s.withPend p) = .next (t.withPend p) ∧ t.pend = s.pend) := by
  have hv : p.valid = s.pend.valid := hp.trans hidle.symm
  unfold step takeTurn at h ⊢
  rw [State.withPend_script]
  split at h
  · exact .inr (unitTurn_withPend hidle hp h)
  · next rest _ => exact .inr (unitTurn_withPend (s := { s with script := rest }) hidle hp h)
  · next ahead rest _ =>
    cases h
    refine .inr ⟨congrArg _ (waitTurn_withPend hv ahead rest), ?_⟩
    obtain ⟨v, n, hwait⟩ := waitTurn_cases ahead rest s
    rw [hwait]
  · cases h
    exact .inl rfl
  · next a rest _ =>
    have hen : hostEnabled a (s.withPend p) = hostEnabled a s := by cases a <;> rfl
    simp only [hen]
    split at h
    · next henabled =>
      rw [if_pos henabled]
      exact hostAct_withPend (s := { s with script := rest }) hv h
    · next hwaits =>
      rw [if_neg hwaits]
      exact .inr (unitTurn_withPend hidle hp h)

/-- Settles O46: the two steps set the latch alike or leave it alike. -/
theorem staleLatchFieldsAreNeverRead : Obligations.StaleLatchFieldsAreNeverRead := by
  unfold Obligations.StaleLatchFieldsAreNeverRead
  intro s t p hidle hp h
  rcases step_withPend hidle hp h with hsame | ⟨hkept, hpend⟩
  · exact ⟨t, hsame, rfl, rfl, .inl rfl⟩
  · exact ⟨t.withPend p, hkept, rfl, by rw [hpend, hidle]; exact hp, .inr ⟨rfl, hpend⟩⟩

end Sys2Proof.Machine
end

section
/-! SUPPORT. Runs of several steps (10_state.md R20 to R22, 70_reset_and_hazards.md R159, R161): what a property that
every step keeps says of every run, back-pressure, and a WAIT behind a latched command. -/

namespace Sys2Proof.Machine

/-! ### Runs -/

theorem run_zero (s : State) : Host.Core.run Sys2Proof.core 0 s = .next s := rfl

theorem run_succ_of_step {s t : State} (h : step s = .next t) (k : Nat) :
    Host.Core.run Sys2Proof.core (k + 1) s = Host.Core.run Sys2Proof.core k t := by
  have hcore : Sys2Proof.core.step s = .next t := h
  simp only [Host.Core.run, hcore]

theorem step_of_run_succ {s u : State} {k : Nat}
    (h : Host.Core.run Sys2Proof.core (k + 1) s = .next u) :
    ∃ t, step s = .next t ∧ Host.Core.run Sys2Proof.core k t = .next u := by
  simp only [Host.Core.run] at h
  split at h
  · next t ht => exact ⟨t, ht, h⟩
  · cases h
  · cases h

/-- A run of steps goes on from where its first part ended. -/
theorem run_add {s u : State} {j : Nat} (h : Host.Core.run Sys2Proof.core j s = .next u) (k : Nat) :
    Host.Core.run Sys2Proof.core (j + k) s = Host.Core.run Sys2Proof.core k u := by
  induction j generalizing s with
  | zero => cases h; rw [Nat.zero_add]
  | succ j ih =>
    obtain ⟨t, ht, hrun⟩ := step_of_run_succ h
    rw [Nat.add_right_comm, run_succ_of_step ht]
    exact ih hrun

/-- A property under which every step answers and which every step keeps holds after every run. -/
theorem run_of_invariant {P : State → Prop} (hstep : ∀ s, P s → ∃ t, step s = .next t ∧ P t)
    (k : Nat) {s : State} (hs : P s) : ∃ t, Host.Core.run Sys2Proof.core k s = .next t ∧ P t := by
  induction k generalizing s with
  | zero => exact ⟨s, rfl, hs⟩
  | succ k ih =>
    obtain ⟨u, hu, hP⟩ := hstep s hs
    rw [run_succ_of_step hu]
    exact ih hP

/-! ### Back-pressure (R159) -/

/-- R56, R133: a step whose turn is inside the interface answers. -/
theorem exists_step_eq_next {s : State} (h : accessesInside s.script) : ∃ t, step s = .next t := by
  cases ht : step s with
  | next t => exact ⟨t, rfl⟩
  | fault r => cases r
  | refused r =>
    obtain ⟨a, rest, hs, hact⟩ := hostAct_refused_of_step ht
    obtain ⟨-, off, width, ha, hout⟩ := (hostAct_eq_refused_iff a _ r).1 hact
    have hhead := h (.host a) (by rw [hs]; exact List.mem_cons_self)
    rcases ha with rfl | ⟨d, rfl⟩ <;> exact absurd hhead hout

/-- A step leaves turns of the script, or those of a WAIT in them. -/
theorem mem_script_of_step {s t : State} (h : step s = .next t) {x : Turn} (hx : x ∈ t.script) :
    x = .unit ∨ (∃ k, x = .wait k) ∨ x ∈ s.script := by
  have hunit {u : State} (hu : unitTurn u = .next t) : x ∈ u.script := by
    rcases unitTurn_cases hu with ⟨-, rfl⟩ | ⟨-, hset⟩
    · exact hx
    · rwa [hset.script_eq] at hx
  unfold step takeTurn at h
  split at h
  · exact .inr (.inr (hunit h))
  · next hs => exact .inr (.inr (by rw [hs]; exact List.mem_cons_of_mem _ (hunit h)))
  · next ahead rest hs =>
    cases h
    obtain ⟨v, n, hwait⟩ := waitTurn_cases ahead rest s
    rw [hwait] at hx
    have hrest (hmem : x ∈ rest) : x ∈ s.script := by rw [hs]; exact List.mem_cons_of_mem _ hmem
    dsimp only at hx
    split at hx
    · exact (mem_waitAgain hx).imp_right (Or.imp_right hrest)
    · exact .inr (.inr (hrest hx))
  · next hs =>
    cases h
    exact .inr (.inr (by rw [hs]; exact List.mem_cons_of_mem _ hx))
  · next a rest hs =>
    split at h
    · rw [(hostAct_params_script h).2] at hx
      exact .inr (.inr (by rw [hs]; exact List.mem_cons_of_mem _ hx))
    · exact .inr (.inr (hunit h))

theorem accessesInside_of_step {s t : State} (h : step s = .next t) (hs : accessesInside s.script) :
    accessesInside t.script := by
  intro x hx
  rcases mem_script_of_step h hx with rfl | ⟨k, rfl⟩ | hmem
  · trivial
  · trivial
  · exact hs x hmem

theorem neverDrains_of_step {s t : State} (h : step s = .next t) (hs : neverDrains s.script) :
    neverDrains t.script := by
  intro x hx
  rcases mem_script_of_step h hx with rfl | ⟨k, rfl⟩ | hmem
  · exact ⟨nofun, nofun⟩
  · exact ⟨nofun, nofun⟩
  · exact hs x hmem

theorem unitTurn_params {s t : State} (h : unitTurn s = .next t) : t.params = s.params := by
  rcases unitTurn_cases h with ⟨-, rfl⟩ | ⟨-, hset⟩
  · rfl
  · exact hset.params_eq

/-- R7: no step changes the parameters. -/
theorem params_of_step {s t : State} (h : step s = .next t) : t.params = s.params := by
  rcases step_cases h with ⟨rest, hunit⟩ | ⟨ahead, rest, -, rfl⟩ | ⟨rest, -, rfl⟩ |
    ⟨a, rest, -, -, hact⟩
  · exact unitTurn_params (s := { s with script := rest }) hunit
  · obtain ⟨v, n, hwait⟩ := waitTurn_cases ahead rest s
    rw [hwait]
  · rfl
  · exact (hostAct_params_script hact).1

/-- R40, R159: without a pop and a Reset OUT does not shrink. -/
theorem out_length_le_of_step {s t : State} (h : step s = .next t) (hs : neverDrains s.script) :
    s.out.length ≤ t.out.length := by
  rcases outIsAQueue s t h with ⟨values, hout⟩ | ⟨v, rest, hpop, -⟩ | ⟨-, rest, hreset⟩
  · rw [hout, List.length_append]
    exact Nat.le_add_right _ _
  · exact absurd rfl (hs (.host .outPop) (by rw [hpop]; exact List.mem_cons_self)).1
  · exact absurd rfl (hs .reset (by rw [hreset]; exact List.mem_cons_self)).2

/-- OUT holds at least `n` values, more than OUT_DEPTH. -/
def BackPressured (depth n : Nat) (s : State) : Prop :=
  s.params.outDepth = some depth ∧ depth < n ∧ n ≤ s.out.length

theorem BackPressured.busy {depth n : Nat} {s : State} (h : BackPressured depth n s) :
    s.busy = true := by
  obtain ⟨hdepth, hlt, hle⟩ := h
  exact s.busy_iff.2 (.inr ⟨depth, hdepth, hlt.trans_le hle⟩)

theorem BackPressured.of_le {depth n : Nat} {s t : State} (h : BackPressured depth n s)
    (hparams : t.params = s.params) (hout : s.out.length ≤ t.out.length) :
    BackPressured depth n t := by
  obtain ⟨hdepth, hlt, hle⟩ := h
  exact ⟨by rw [hparams, hdepth], hlt, hle.trans hout⟩

/-- The host neither pops nor resets, and stays inside the interface, behind a back-pressured OUT. -/
def HeldWithoutPop (depth n : Nat) (s : State) : Prop :=
  BackPressured depth n s ∧ accessesInside s.script ∧ neverDrains s.script

theorem HeldWithoutPop.step {depth n : Nat} {s : State} (h : HeldWithoutPop depth n s) :
    ∃ t, Machine.step s = .next t ∧ HeldWithoutPop depth n t := by
  obtain ⟨hback, hinside, hdrains⟩ := h
  obtain ⟨t, ht⟩ := exists_step_eq_next hinside
  exact ⟨t, ht, hback.of_le (params_of_step ht) (out_length_le_of_step ht hdrains),
    accessesInside_of_step ht hinside, neverDrains_of_step ht hdrains⟩

/-- R89, R159: the host stands in a WAIT behind a back-pressured OUT, before a poll or with the unit's move
before the next one. -/
def HeldInWait (depth n : Nat) (rest : List Turn) (s : State) : Prop :=
  BackPressured depth n s ∧ (s.script = .unit :: .wait 0 :: rest ∨ ∃ j, s.script = .wait j :: rest)

theorem HeldInWait.step {depth n : Nat} {rest : List Turn} {s : State}
    (h : HeldInWait depth n rest s) : ∃ t, Machine.step s = .next t ∧ HeldInWait depth n rest t := by
  obtain ⟨hback, hs | ⟨j, hs⟩⟩ := h
  · obtain ⟨t, ht⟩ := exists_unitTurn_eq_next { s with script := .wait 0 :: rest }
    obtain ⟨values, hout⟩ := unitTurn_out ht
    have hscript : t.script = .wait 0 :: rest := by
      rcases unitTurn_cases ht with ⟨-, rfl⟩ | ⟨-, hset⟩
      · rfl
      · exact hset.script_eq
    refine ⟨t, ?_, hback.of_le (unitTurn_params (s := { s with script := .wait 0 :: rest }) ht) ?_,
      .inr ⟨0, hscript⟩⟩
    · simp only [Machine.step, takeTurn, hs, ht]
    · rw [hout, List.length_append]
      exact Nat.le_add_right _ _
  · refine ⟨waitTurn j rest s, by simp only [Machine.step, takeTurn, hs], ?_⟩
    rw [waitTurn_of_busy hback.busy]
    refine ⟨hback.of_le rfl le_rfl, ?_⟩
    cases j with
    | zero => exact .inl rfl
    | succ j => exact .inr ⟨j, rfl⟩

/-- Settles O51: both ways of holding on to a back-pressured OUT are kept by every step. -/
theorem backPressureHoldsUntilPopped : Obligations.BackPressureHoldsUntilPopped := by
  unfold Obligations.BackPressureHoldsUntilPopped
  intro s depth hdepth hlt
  have hback : BackPressured depth s.out.length s := ⟨hdepth, hlt, le_rfl⟩
  refine ⟨fun hinside hdrains k => ?_, fun ahead rest hs k => ?_⟩
  · obtain ⟨t, ht, hheld, -, -⟩ := run_of_invariant (fun _ => HeldWithoutPop.step) k
      ⟨hback, hinside, hdrains⟩
    exact ⟨t, ht, hheld.busy, hheld.2.2⟩
  · obtain ⟨t, ht, hheld, hscript⟩ := run_of_invariant (fun _ => HeldInWait.step) k
      ⟨hback, .inr ⟨ahead, hs⟩⟩
    exact ⟨t, ht, hheld.busy, hscript⟩

/-! ### A WAIT behind a latched command (R89, R161) -/

/-- R89: a WAIT behind a latched command polls `ahead + 1` times, and then the unit moves. -/
theorem run_polls {rest : List Turn} (ahead : Nat) :
    ∀ s : State, s.pend.valid = true → ∃ replies draws,
      Host.Core.run Sys2Proof.core (ahead + 1) { s with script := .wait ahead :: rest } =
        .next { s with script := .unit :: .wait 0 :: rest, replies := replies, draws := draws } := by
  induction ahead with
  | zero =>
    intro s hv
    rw [run_succ_of_step (step_wait s 0 rest),
      waitTurn_of_busy (State.busy_of_latched (s := { s with script := .wait 0 :: rest }) hv)]
    exact ⟨_, _, rfl⟩
  | succ ahead ih =>
    intro s hv
    rw [run_succ_of_step (step_wait s (ahead + 1) rest),
      waitTurn_of_busy (State.busy_of_latched (s := { s with script := .wait (ahead + 1) :: rest }) hv)]
    exact ih { s with replies := _, draws := _ } hv

/-- R22: with a command latched the unit's turn is its Exec, which clears the latch. -/
theorem step_unit_of_latched {s : State} (hv : s.pend.valid = true) (rest : List Turn) :
    ∃ t, execLatched { s with script := rest } = .next t ∧ t.script = rest ∧
      t.pend.valid = false ∧ step { s with script := .unit :: rest } = .next t := by
  obtain ⟨t, ht, hset⟩ := exists_execLatched_eq_next { s with script := rest }
  refine ⟨t, ht, hset.script_eq, hset.pend_valid, ?_⟩
  rw [step_unit, unitTurn_of_latched (s := { s with script := rest }) hv, ht]

/-- R89, R159: a poll with nothing latched ends the WAIT, or OUT stands above OUT_DEPTH. -/
theorem waitTurn_of_unlatched {s : State} (hv : s.pend.valid = false) (rest : List Turn) :
    ((waitTurn 0 rest s).script = rest ∧ (waitTurn 0 rest s).busy = false ∧
        ∃ v, (waitTurn 0 rest s).replies.getLast? = some (.reg v) ∧ v.getLsbD 0 = false) ∨
      ((waitTurn 0 rest s).script = .unit :: .wait 0 :: rest ∧
        ∃ depth, (waitTurn 0 rest s).params.outDepth = some depth ∧
          depth < (waitTurn 0 rest s).out.length) := by
  cases hbusy : s.busy with
  | false =>
    rw [waitTurn_of_idle hbusy]
    exact .inl ⟨rfl, hbusy, s.statusWord s.err, List.getLast?_concat,
      (statusWord_getLsbD_zero s _).trans hbusy⟩
  | true =>
    rw [waitTurn_of_busy hbusy]
    rcases s.busy_iff.1 hbusy with hlatched | hdepth
    · exact absurd (hv.symm.trans hlatched) Bool.false_ne_true
    · exact .inr ⟨rfl, hdepth⟩

/-- Settles O59: the polls, the unit's Exec, and one more poll. -/
theorem waitEndsUnlessBackPressured : Obligations.WaitEndsUnlessBackPressured := by
  unfold Obligations.WaitEndsUnlessBackPressured
  intro s rest ahead hv
  obtain ⟨replies, draws, hpolls⟩ := run_polls (rest := rest) ahead s hv
  obtain ⟨e, hexec, hscript, hclear, hstep⟩ :=
    step_unit_of_latched (s := { s with replies := replies, draws := draws }) hv (.wait 0 :: rest)
  have hpoll : step e = .next (waitTurn 0 rest e) := by simp only [step, takeTurn, hscript]
  obtain ⟨v, n, hwait⟩ := waitTurn_cases 0 rest e
  refine ⟨ahead + 1 + 2, waitTurn 0 rest e, le_rfl, ?_, ?_, ⟨replies, draws, e, hexec, ?_⟩,
    waitTurn_of_unlatched hclear rest⟩
  · rw [run_add hpolls, run_succ_of_step hstep, run_succ_of_step hpoll, run_zero]
  · rw [hwait]; exact hclear
  · rw [hwait]

/-! ### Progress of a latched command (R161) -/

/-- What a latched command waits for: after at most `n` steps of the host the unit executes it, its input as it
was latched, or Reset discards it. -/
def TakenWithin (n : Nat) (s : State) : Prop :=
  ∃ k u t, k ≤ n ∧ Host.Core.run Sys2Proof.core k s = .next u ∧
    u.pend = s.pend ∧ u.buf = s.buf ∧ u.off = s.off ∧ u.len = s.len ∧ u.params = s.params ∧
    step u = .next t ∧ t.pend.valid = false ∧
    (execLatched { u with script := t.script } = .next t ∨
      ∃ rest, u.script = .reset :: rest ∧ t = State.resetUnit { u with script := rest })

/-- The unit's move takes the command. -/
theorem takenWithin_of_unit {s : State} {rest : List Turn} (n : Nat) (hv : s.pend.valid = true)
    (hstep : step s = unitTurn { s with script := rest }) : TakenWithin n s := by
  obtain ⟨t, ht, hset⟩ := exists_execLatched_eq_next { s with script := rest }
  refine ⟨0, s, t, Nat.zero_le n, rfl, rfl, rfl, rfl, rfl, rfl, ?_, hset.pend_valid, .inl ?_⟩
  · rw [hstep, unitTurn_of_latched (s := { s with script := rest }) hv, ht]
  · rw [hset.script_eq]; exact ht

/-- A step of the host that leaves the input of the command lets it be taken one step later. -/
theorem TakenWithin.after {n j : Nat} {s u : State} (h : TakenWithin n u)
    (hrun : Host.Core.run Sys2Proof.core j s = .next u) (hpend : u.pend = s.pend)
    (hbuf : u.buf = s.buf) (hoff : u.off = s.off) (hlen : u.len = s.len)
    (hparams : u.params = s.params) : TakenWithin (j + n) s := by
  obtain ⟨k, w, t, hk, hw, hwpend, hwbuf, hwoff, hwlen, hwparams, htaken⟩ := h
  exact ⟨j + k, w, t, Nat.add_le_add_left hk j, (run_add hrun k).trans hw, hwpend.trans hpend,
    hwbuf.trans hbuf, hwoff.trans hoff, hwlen.trans hlen, hwparams.trans hparams, htaken⟩

theorem TakenWithin.mono {n m : Nat} {s : State} (h : TakenWithin n s) (hle : n ≤ m) :
    TakenWithin m s := by
  obtain ⟨k, u, t, hk, htaken⟩ := h
  exact ⟨k, u, t, hk.trans hle, htaken⟩

/-- R161: by induction on the script; a host action leaves the command and its input, and every other turn leads
to the unit's move or is Reset. -/
theorem takenWithin_scriptMoves {script : List Turn} (hinside : accessesInside script) :
    ∀ s : State, s.script = script → s.pend.valid = true → TakenWithin (scriptMoves script) s := by
  induction script with
  | nil =>
    intro s hs hv
    have hunit : step s = unitTurn s := by simp only [step, takeTurn, hs]
    exact takenWithin_of_unit _ hv hunit
  | cons turn rest ih =>
    have hrest : accessesInside rest := fun x hx => hinside x (List.mem_cons_of_mem _ hx)
    intro s hs hv
    cases turn with
    | unit => exact takenWithin_of_unit (rest := rest) _ hv (by rw [step, takeTurn, hs])
    | reset =>
      exact ⟨0, s, State.resetUnit { s with script := rest }, Nat.zero_le _, rfl, rfl, rfl, rfl, rfl,
        rfl, by simp only [step, takeTurn, hs], rfl, .inr ⟨rest, hs, rfl⟩⟩
    | wait ahead =>
      have hself : s = { s with script := .wait ahead :: rest } := by rw [← hs]
      obtain ⟨replies, draws, hpolls⟩ := run_polls (rest := rest) ahead s hv
      rw [← hself] at hpolls
      have hunit : TakenWithin 0
          { s with script := .unit :: .wait 0 :: rest, replies := replies, draws := draws } :=
        takenWithin_of_unit 0 hv (step_unit { s with replies := replies, draws := draws } _)
      refine (hunit.after hpolls rfl rfl rfl rfl rfl).mono ?_
      rw [scriptMoves, List.map_cons, List.sum_cons, Turn.moves]
      omega
    | host a =>
      cases hen : hostEnabled a s with
      | true =>
        obtain ⟨t, ht⟩ := exists_step_eq_next (s := s) (by rw [hs]; exact hinside)
        have hact := ht
        rw [step_of_host hs hen] at hact
        obtain ⟨wob, out, draws, replies, rfl⟩ :=
          hostAct_of_busy (s := { s with script := rest }) (State.busy_of_latched hv) hact
        have hrun := (run_succ_of_step ht 0).trans (run_zero _)
        refine TakenWithin.after (j := 1) ?_ hrun rfl rfl rfl rfl rfl
        exact ih hrest _ rfl hv
      | false =>
        have hunit : step s = unitTurn s := by
          simp only [step, takeTurn, hs, hen, Bool.false_eq_true, if_false]
        exact takenWithin_of_unit _ hv hunit

/-- Settles O52: every script leads to the unit's move or to Reset within its moves. -/
theorem latchedCommandIsExecuted : Obligations.LatchedCommandIsExecuted := by
  unfold Obligations.LatchedCommandIsExecuted
  exact fun s hv hinside => takenWithin_scriptMoves hinside s rfl hv

end Sys2Proof.Machine
end

section
/-! SUPPORT. The lines of the assembler (30_encoding.md R88 to R90): their words as numbers, and when a line is
refused. -/

namespace Sys2Proof.Machine

/-! ### Words -/

/-- R72, R88: the word of a command of a legal width, as a number. -/
theorem commandWord_width (op : BitVec 4) (lm : BitVec 1) {bw : Nat} (h : bw ≤ 32) :
    commandWord op (BitVec.ofNat 6 bw) lm 0 =
      BitVec.ofNat 32 (op.toNat + 1024 * lm.toNat + 16 * bw) := by
  have hop := op.isLt
  have hlm := lm.isLt
  refine BitVec.eq_of_toNat_eq ?_
  rw [commandWord_toNat, BitVec.toNat_ofNat, BitVec.toNat_ofNat, Nat.mod_eq_of_lt (by omega),
    Nat.mod_eq_of_lt (by omega), BitVec.ofNat_eq_ofNat, BitVec.toNat_ofNat, Nat.zero_mod]
  omega

/-! ### Operands and widths -/

theorem asmOperand_of_lt {n : Nat} (h : n < 2 ^ 32) : asmOperand n = some (BitVec.ofNat 32 n) :=
  if_pos h

theorem asmOperand_eq_none_iff (n : Nat) : asmOperand n = none ↔ 2 ^ 32 ≤ n := by
  unfold asmOperand
  split
  · next hlt => exact iff_of_false nofun (Nat.not_le.2 hlt)
  · next hge => exact iff_of_true rfl (Nat.not_lt.1 hge)

theorem asmWidth_of_le {bw : Nat} (h : bw ≤ 32) : asmWidth bw = some (BitVec.ofNat 6 bw) :=
  if_pos h

/-! ### Lines -/

theorem asmWithArg_of_lt {n : Nat} (h : n < 2 ^ 32) (i : Instr) :
    asmWithArg n i = some [writeReg 0x04 (BitVec.ofNat 32 n), writeReg 0x00 (encode i)] := by
  rw [asmWithArg, asmOperand_of_lt h]

theorem asmWithArg_eq_none_iff (n : Nat) (i : Instr) : asmWithArg n i = none ↔ 2 ^ 32 ≤ n := by
  rw [← asmOperand_eq_none_iff, asmWithArg]
  cases asmOperand n <;> simp

/-- R88: a line with a width and an operand, of a row whose word is that of its fields. -/
theorem asmRun_of_legal {n bw : Nat} {row : BitVec 6 → Instr} {op : BitVec 4} {lm : BitVec 1}
    (hn : n < 2 ^ 32) (hbw : bw ≤ 32) (hrow : ∀ w, encode (row w) = commandWord op w lm 0) :
    asmRun n bw row =
      some [writeReg 0x04 (BitVec.ofNat 32 n),
        writeReg 0x00 (BitVec.ofNat 32 (op.toNat + 1024 * lm.toNat + 16 * bw))] := by
  rw [asmRun, asmWidth_of_le hbw]
  simp only
  rw [asmWithArg_of_lt hn, hrow, commandWord_width op lm hbw]

theorem asmRun_eq_none_iff (n bw : Nat) (row : BitVec 6 → Instr) :
    asmRun n bw row = none ↔ 32 < bw ∨ 2 ^ 32 ≤ n := by
  unfold asmRun
  cases hw : asmWidth bw with
  | none => exact iff_of_true rfl (.inl ((asmWidth_eq_none_iff bw).1 hw))
  | some w =>
    have hle : ¬ 32 < bw := fun hgt => nomatch ((asmWidth_eq_none_iff bw).2 hgt).symm.trans hw
    exact (asmWithArg_eq_none_iff n (row w)).trans (or_iff_right hle).symm

theorem asmHybP_of_le {bw : Nat} (h : bw ≤ 32) :
    asmHybP bw = some [writeReg 0x00 (BitVec.ofNat 32 (0x7 + 16 * bw))] := by
  rw [asmHybP, asmWidth_of_le h]
  exact congrArg (fun w => some [writeReg 0x00 w]) (commandWord_width 7 0 h)

/-- Settles O55: each line is an operand, a width and the word of its fields. -/
theorem assembledLinesWriteTheirWords : Obligations.AssembledLinesWriteTheirWords := by
  unfold Obligations.AssembledLinesWriteTheirWords
  intro n bw
  refine ⟨fun hn hbw => ⟨asmWithArg_of_lt hn .rdn,
      asmRun_of_legal (op := 5) (lm := 0) hn hbw fun _ => rfl,
      asmRun_of_legal (op := 6) (lm := 0) hn hbw fun _ => rfl,
      asmRun_of_legal (op := 7) (lm := 1) hn hbw fun _ => rfl, asmHybP_of_le hbw⟩,
    rfl, rfl, rfl, asmWithArg_eq_none_iff n .rdn, asmHybP_eq_none_iff bw,
    asmRun_eq_none_iff n bw .bitpack, asmRun_eq_none_iff n bw .rle, asmRun_eq_none_iff n bw .hybL⟩

/-! ### Directives -/

/-- R89: `.buf` writes byte j of its list at `a + j`. -/
theorem asmBytes_eq_mapIdx (a : Nat) (bytes : List Byte) :
    asmBytes a bytes = bytes.mapIdx fun j b => .host (.bufWrite (a + j) b) := by
  induction bytes generalizing a with
  | nil => rfl
  | cons b bs ih =>
    rw [asmBytes, ih, List.mapIdx_cons]
    simp only [Nat.add_zero, Nat.add_assoc, Nat.add_comm 1]

theorem asmDirective_of_lt {n : Nat} (h : n < 2 ^ 32) (off : Nat) :
    asmDirective off n = some [writeReg off (BitVec.ofNat 32 n)] := by
  rw [asmDirective, asmOperand_of_lt h]

/-- R90: SKIP is RDN and the pops of its values. -/
theorem assemble_skip_of_lt {n : Nat} (h : n < 2 ^ 32) :
    assemble (.skip n) =
      some ([writeReg 0x04 (BitVec.ofNat 32 n), writeReg 0x00 (encode .rdn)] ++
        List.replicate n (.host .outPop)) := by
  rw [assemble, asmWithArg_of_lt h]
  rfl

/-- Settles O56: the directives write the register or the bytes they name, and a pseudo-instruction is assembled
as its expansion. -/
theorem directivesAndPseudoInstructionsExpand : Obligations.DirectivesAndPseudoInstructionsExpand := by
  unfold Obligations.DirectivesAndPseudoInstructionsExpand
  exact ⟨fun a bytes => congrArg some (asmBytes_eq_mapIdx a bytes),
    fun n hn => ⟨asmDirective_of_lt hn 0x14, asmDirective_of_lt hn 0x10, assemble_skip_of_lt hn⟩,
    fun _ => rfl, fun _ => rfl, rfl, rfl, fun _ _ => rfl, fun _ _ => rfl⟩

end Sys2Proof.Machine
end
